-- ==== Sys2Proof/Word.lean ====
section
/-! DEFINITION. The words of the core: input bytes, codes, the code counter and the command word. -/

namespace Sys2Proof

/-- A byte of the input stream, unsigned, 0..255 (00_scope.md R9). -/
abbrev Byte := BitVec 8

/-- A code, `CODE_WIDTH` bits, unsigned: a table address and an output value (00_scope.md R11). -/
abbrev Code (w : Nat) := BitVec w

/-- A value of `next_code`: one bit wider than a code, to hold `TABLE_SIZE` itself (00_scope.md R11, 10_state.md R22). -/
abbrev NextCode (w : Nat) := BitVec (w + 1)

/-- The 10-bit command word (30_encoding.md R72). -/
abbrev CommandWord := BitVec 10

end Sys2Proof
end

