-- ==== Sys2Proof/Config.lean ====
section
/-! DEFINITION. What an implementation fixes (00_scope.md section 3) and the values the spec leaves free. The core is
written for every code width `w`; `codeWidth` is this hardware's. -/

namespace Sys2Proof.Config

/-- `CODE_WIDTH`, the elaboration-time parameter, 12 for this hardware (00_scope.md R7).
UNVERIFIED, log entry 1: the spec says the literal was not audited. -/
def codeWidth : Nat := 12

/-- The widths a model may be elaborated at (00_scope.md R10). -/
def admitted (w : Nat) : Bool := 8 ≤ w

/-- The refusal of 00_scope.md R10: with a `codeWidth` below 8 this file does not elaborate. -/
theorem codeWidth_admitted : admitted codeWidth = true := by decide

/-- `TABLE_SIZE` (00_scope.md R8). -/
def tableSize (w : Nat) : Nat := 2 ^ w

/-- `ALPHABET_SIZE`, with the single admitted value (00_scope.md R9). -/
def alphabetSize : Nat := 256

/-- `LEARNABLE`: how many pair entries one run can learn (00_scope.md R11). -/
def learnable (w : Nat) : Nat := tableSize w - alphabetSize

/-- FREE VALUE: `next_code` after a RESET event (10_state.md R41, R17: "may be any value of its width, may differ between
two resets"). Log entry 2. -/
opaque freeNextCode : (w : Nat) → Nat → NextCode w

/-- FREE VALUE: `st_full` in FAULT (10_state.md R36, 93_implementation_defined.md U18). Log entry 17. -/
opaque freeStFull : Nat → BitVec 1

/-- FREE VALUE: `st_next_code` in IDLE and FAULT (10_state.md R36, 93_implementation_defined.md U18). Log entry 17. -/
opaque freeStNextCode : (w : Nat) → Nat → NextCode w

/-- FREE VALUE: the `code` wires while `code_valid` is 0, on which the spec is silent. Log entry 17. -/
opaque freeCodeWires : (w : Nat) → Nat → Code w

end Sys2Proof.Config
end

