-- ==== Sys2Proof/Machine/State.lean ====
section
/-! DEFINITION. The state of the core (10_state.md R20), the environment's inputs beside it, the reasons a step can
stop, and the state after reset. -/

namespace Sys2Proof.Machine

/-- The control state, where the core is in the document's five-step algorithm (10_state.md R32). -/
inductive Phase where
  | idle
  | ready
  | run
  | done
  | fault
  deriving DecidableEq, Repr

/-- The value of `fault_cause`; the encoding 3 is never written (10_state.md R37). -/
inductive FaultCause where
  | noFault
  | illegalOpcode
  | illegalPhase
  deriving DecidableEq, Repr

/-- A learnt `(prefix_code, next_byte)` pair (10_state.md R26). -/
structure PairEntry (w : Nat) where
  prefixCode : Code w
  nextByte : Byte
  deriving DecidableEq, Repr

/-- A table entry, one of two forms (10_state.md R26). -/
inductive Entry (w : Nat) where
  | literal (b : Byte)
  | pair (e : PairEntry w)
  deriving DecidableEq, Repr

/-- The pair region of the table, a RAM addressed by code: its written entries by rising address. An entry that is not
listed has no value (10_state.md R29: "A model may hold these entries as absent"), log entry 5. -/
abbrev Memory (w : Nat) := List (Nat × PairEntry w)

/-- The architectural state of a core of code width `w`: the six items of 10_state.md R20, `T` as its two regions
(R27, R28), and the holding register of the code port (R38). -/
structure CoreState (w : Nat) where
  /-- `phase`. -/
  phase : Phase
  /-- `next_code`. -/
  nextCode : NextCode w
  /-- `current_prefix_code`, with no value while it is undefined (10_state.md R24). -/
  currentPrefixCode : Option (Code w)
  /-- Whether the literal region of `T` holds the identity: from START until the next RESET (10_state.md R27, R41). -/
  literalsPresent : Bool
  /-- The pair region of `T`. -/
  table : Memory w
  /-- `fault_cause`. -/
  faultCause : FaultCause
  /-- `out`, the codes emitted in the current run, oldest first (10_state.md R38). -/
  out : List (Code w)
  /-- The emitted code that the environment has not accepted yet (10_state.md R38, 30_encoding.md R82). -/
  pending : Option (Code w)
  deriving DecidableEq, Repr

/-- What the environment drives on the input ports at one moment (30_encoding.md R70). -/
structure PortInputs where
  /-- `rst` is asserted. -/
  rst : Bool
  /-- `cmd_valid`. -/
  cmdValid : Bool
  /-- `cmd`. -/
  cmd : CommandWord
  /-- `code_ready`. -/
  codeReady : Bool
  deriving DecidableEq, Repr

/-- The output ports (30_encoding.md R70, 10_state.md R36). -/
structure PortOutputs (w : Nat) where
  cmdReady : Bool
  codeValid : Bool
  code : Code w
  stPhase : BitVec 3
  stFull : BitVec 1
  stFaultCause : BitVec 2
  stNextCode : NextCode w
  deriving DecidableEq, Repr

/-- The machine: a core of this hardware's width, and beside it what is no state of the core (10_state.md R21). -/
structure State extends CoreState Config.codeWidth where
  /-- The model's own field: what the environment will do at the ports, the next moment first. Log entry 4. -/
  inputs : List PortInputs
  /-- The model's own field: the counter that free values are taken at. Log entry 3. -/
  freeIndex : Nat
  deriving DecidableEq, Repr

/-- Why the machine stops. A protocol fault of the spec is not among these: it is a next state in phase FAULT
(60_exceptions.md R165), log entry 10. -/
inductive Fault where
  /-- Raised by BYTE and EOS in RUN when `current_prefix_code` has no value (93_implementation_defined.md U1: "A rule that
  read it would be a `fault`; none does"). Safe: no state that meets `Safety.MachineInv` raises it. Log entry 8. -/
  | undefinedPrefix
  deriving DecidableEq, Repr

/-- Why an instruction has no meaning. -/
inductive Refusal where
  /-- Raised by an arm of `exec` whose instruction has no meaning yet; no arm does. Safe. -/
  | notModelled (mnemonic : String)
  deriving DecidableEq, Repr

/-- The machine right after RESET (10_state.md R41), with nothing presented at the ports. `nextCode` is unspecified
there: DESIGN CHOICE 0, log entry 2. `inputs` and `freeIndex`: DESIGN CHOICE, log entries 4 and 3. -/
def State.reset : State where
  phase := .idle
  nextCode := 0
  currentPrefixCode := none
  literalsPresent := false
  table := []
  faultCause := .noFault
  out := []
  pending := none
  inputs := []
  freeIndex := 0

end Sys2Proof.Machine
end

