-- ==== Sys2Proof/Machine/Operands.lean ====
section
/-! DEFINITION. The operand of BYTE as a code, and the bit layouts of a stored entry, of `phase` and of
`fault_cause`. -/

namespace Sys2Proof.Machine

variable {w : Nat}

/-- `Lit(b)`: the byte zero-extended to a code, never sign-extended (30_encoding.md R78, 40_table_and_search.md R90). -/
def literalCode (w : Nat) (b : Byte) : Code w := b.setWidth w

/-- The storage word of a pair entry: prefix high, byte low (10_state.md R30). -/
def PairEntry.toWord (e : PairEntry w) : BitVec (w + 8) := e.prefixCode ++ e.nextByte

/-- The pair entry that a storage word holds (10_state.md R30). -/
def PairEntry.ofWord (v : BitVec (w + 8)) : PairEntry w := ⟨v.extractLsb' 8 w, v.extractLsb' 0 8⟩

/-- The encoding of `phase` (10_state.md R32). -/
def Phase.encode : Phase → BitVec 3
  | .idle => 0b000
  | .ready => 0b001
  | .run => 0b010
  | .done => 0b011
  | .fault => 0b100

/-- The phase an encoding stands for; 5, 6 and 7 never occur and are refused (10_state.md R32,
93_implementation_defined.md U19). -/
def Phase.ofEncoding (v : BitVec 3) : Option Phase :=
  [Phase.idle, .ready, .run, .done, .fault].find? (fun p => p.encode == v)

/-- The encoding of `fault_cause` (10_state.md R37, 60_exceptions.md R164). -/
def FaultCause.encode : FaultCause → BitVec 2
  | .noFault => 0
  | .illegalOpcode => 1
  | .illegalPhase => 2

end Sys2Proof.Machine
end

