-- ==== Sys2Proof/Machine/Flags.lean ====
section
/-! DEFINITION. The single-bit conditions (10_state.md R34), the handshake outputs (30_encoding.md R70, R71, R82) and the
status outputs (10_state.md R36) as functions of the state. -/

namespace Sys2Proof.Machine

variable {w : Nat}

/-- `full`: the table is saturated (10_state.md R34). -/
def full (s : CoreState w) : Bool := s.nextCode.toNat == Config.tableSize w

/-- `prefix_valid` (10_state.md R34). -/
def prefixValid (s : CoreState w) : Bool := s.phase == .run

/-- `found`, of the result of one search (10_state.md R34). -/
def found (result : Option (Code w)) : Bool := result.isSome

/-- `done` (10_state.md R34). -/
def isDone (s : CoreState w) : Bool := s.phase == .done

/-- `fault` (10_state.md R34). -/
def isFault (s : CoreState w) : Bool := s.phase == .fault

/-- `code_valid`: an emitted code waits, and the core is not in FAULT (30_encoding.md R82, 60_exceptions.md R166). -/
def codeValid (s : CoreState w) : Bool := !isFault s && s.pending.isSome

/-- `cmd_ready`: 0 in FAULT and while an emitted code waits (30_encoding.md R71); it does not look at `cmd`. -/
def cmdReady (s : CoreState w) : Bool := !isFault s && s.pending.isNone

/-- `code`: the waiting code; the wires carry a free value while `code_valid` is 0. -/
def codeWires (free : Code w) (s : CoreState w) : Code w := if isFault s then free else s.pending.getD free

/-- `st_phase` (10_state.md R36). DESIGN CHOICE (log entry 30): while an emitted code waits, this and the other status outputs
show the state after its step, so DONE is shown with `cmd_ready` 0 until the flushed code is transferred. -/
def stPhase (s : CoreState w) : BitVec 3 := s.phase.encode

/-- `st_full` (10_state.md R36): free in FAULT. -/
def stFull (free : BitVec 1) (s : CoreState w) : BitVec 1 :=
  match s.phase with
  | .idle => 0
  | .ready => BitVec.ofBool (full s)
  | .run => BitVec.ofBool (full s)
  | .done => BitVec.ofBool (full s)
  | .fault => free

/-- `st_fault_cause` (10_state.md R36). -/
def stFaultCause (s : CoreState w) : BitVec 2 := s.faultCause.encode

/-- `st_next_code` (10_state.md R36): free in IDLE and FAULT. -/
def stNextCode (free : NextCode w) (s : CoreState w) : NextCode w :=
  match s.phase with
  | .idle => free
  | .ready => s.nextCode
  | .run => s.nextCode
  | .done => s.nextCode
  | .fault => free

/-- All output ports of the machine, with the free values of the moment. -/
def State.outputs (s : State) : PortOutputs Config.codeWidth where
  cmdReady := Machine.cmdReady s.toCoreState
  codeValid := Machine.codeValid s.toCoreState
  code := codeWires (Config.freeCodeWires _ s.freeIndex) s.toCoreState
  stPhase := Machine.stPhase s.toCoreState
  stFull := Machine.stFull (Config.freeStFull s.freeIndex) s.toCoreState
  stFaultCause := Machine.stFaultCause s.toCoreState
  stNextCode := Machine.stNextCode (Config.freeStNextCode _ s.freeIndex) s.toCoreState

end Sys2Proof.Machine
end

