-- ==== Sys2Proof/Machine/Ops.lean ====
section
/-! DEFINITION. The named operations the commands are built from: the table RAM, the search engine, the code-allocation
counter, the emitter (40_table_and_search.md), taking a protocol fault and the RESET event that alone leaves it
(60_exceptions.md R165, R167, 70_reset_and_hazards.md R190), and the acceptance of a command. -/

namespace Sys2Proof.Machine

variable {w : Nat}

/-! ### The table RAM -/

/-- The entry listed at an address, if one is. -/
def Memory.read : Memory w → Nat → Option (PairEntry w)
  | [], _ => none
  | (k, e) :: rest, a => if k = a then some e else Memory.read rest a

/-- The RAM with one entry replaced, addresses kept rising. -/
def Memory.write : Memory w → Nat → PairEntry w → Memory w
  | [], a, e => [(a, e)]
  | (k, x) :: rest, a, e =>
    if a < k then (a, e) :: (k, x) :: rest
    else if a = k then (a, e) :: rest
    else (k, x) :: Memory.write rest a e

/-- The canonical form: addresses strictly rising, each of a pair entry (20_memory.md R53). An unlisted address has no
value, so no entry can equal what an unlisted address reads as. -/
abbrev Memory.wf (m : Memory w) : Prop :=
  m.Pairwise (fun x y => x.1 < y.1) ∧ ∀ x ∈ m, Config.alphabetSize ≤ x.1 ∧ x.1 < Config.tableSize w

/-- `MemRead(a, 1)`, `T[a]` (20_memory.md R51): the identity in the literal region once START has created it, the stored
pair below `next_code`, and no value where the content is unspecified. -/
def memRead (s : CoreState w) (a : Nat) : Option (Entry w) :=
  if a < Config.alphabetSize then
    if s.literalsPresent then some (.literal (BitVec.ofNat 8 a)) else none
  else if a < s.nextCode.toNat then (Memory.read s.table a).map .pair
  else none

/-- `MemWrite(a, 1, Pair(p, c))` (20_memory.md R52). -/
def memWrite (a : Nat) (e : PairEntry w) (s : CoreState w) : CoreState w :=
  { s with table := Memory.write s.table a e }

/-- START's write of the literal region, all 256 entries (41_start.md R110). -/
def createLiterals (s : CoreState w) : CoreState w := { s with literalsPresent := true }

/-! ### The search engine -/

/-- The ascending scan of the reference implementation (40_table_and_search.md R95): `n` entries from `i` on. -/
def scan (s : CoreState w) (p : Code w) (c : Byte) : (n i : Nat) → Option Nat
  | 0, _ => none
  | n + 1, i => if memRead s i = some (.pair ⟨p, c⟩) then some i else scan s p c n (i + 1)

/-- `Search(p, c)` (40_table_and_search.md R91): `some idx` is `Found(idx)`, `none` is `NotFound`. -/
def search (s : CoreState w) (p : Code w) (c : Byte) : Option (Code w) :=
  (scan s p c (s.nextCode.toNat - Config.alphabetSize) Config.alphabetSize).map (BitVec.ofNat w)

/-! ### The code-allocation counter -/

/-- Where the next insert stores: `next_code[CODE_WIDTH-1:0]` while `next_code < TABLE_SIZE`, nowhere once saturated
(40_table_and_search.md R96, R97). -/
def insertAddress (s : CoreState w) : Option Nat :=
  if s.nextCode.toNat < Config.tableSize w then some (s.nextCode.setWidth w).toNat else none

/-- `Insert(p, c)`: entry and counter in one change, or nothing when saturated (40_table_and_search.md R96, R97). -/
def insert (p : Code w) (c : Byte) (s : CoreState w) : CoreState w :=
  match insertAddress s with
  | some a => { memWrite a ⟨p, c⟩ s with nextCode := s.nextCode + 1 }
  | none => s

/-! ### The emitter -/

/-- `emit(v)`: append to `out` and present on the code port (40_table_and_search.md R98). -/
def emit (v : Code w) (s : CoreState w) : CoreState w := { s with out := s.out ++ [v], pending := some v }

/-- The transfer of the waiting code to the environment (30_encoding.md R82). -/
def transfer (s : CoreState w) : CoreState w := { s with pending := none }

/-! ### The prefix register -/

/-- Give `current_prefix_code` a value and be in RUN, as every case of BYTE ends (42_byte.md R115). -/
def setPrefix (v : Code w) (s : CoreState w) : CoreState w :=
  { s with currentPrefixCode := some v, phase := .run }

/-- Read `current_prefix_code` and go on. A read while it is undefined is a fault (93_implementation_defined.md U1), which
no state that meets the invariant raises; log entry 8. -/
def withPrefix (s : CoreState w) (k : Code w → CoreState w) : Host.Outcome (CoreState w) Fault Refusal :=
  match s.currentPrefixCode with
  | some p => .next (k p)
  | none => .fault .undefinedPrefix

/-! ### Taking a protocol fault, and RESET -/

/-- `raise Fault(cause)` (60_exceptions.md R165). The prefix is undefined outside RUN (10_state.md R24) and R166 lets a
model drop it: DEDUCED, log entry 7. -/
def raiseFault (cause : FaultCause) (s : CoreState w) : CoreState w :=
  { s with faultCause := cause, phase := .fault, currentPrefixCode := none }

/-- The RESET event (70_reset_and_hazards.md R190, 10_state.md R41); `next_code` becomes a free value. -/
def resetCore (free : NextCode w) : CoreState w where
  phase := .idle
  nextCode := free
  currentPrefixCode := none
  literalsPresent := false
  table := []
  faultCause := .noFault
  out := []
  pending := none

/-! ### The acceptance of a command -/

/-- A command has its effect only when the core can accept it; otherwise nothing changes (30_encoding.md R71,
60_exceptions.md R166). -/
def accepted (body : CoreState w → Host.Outcome (CoreState w) Fault Refusal) (s : CoreState w) :
    Host.Outcome (CoreState w) Fault Refusal :=
  if cmdReady s then body s else .next s

/-- A defined command in a phase that does not admit it raises ILLEGAL_PHASE (60_exceptions.md R164). -/
def inPhases (legal : List Phase) (body : CoreState w → Host.Outcome (CoreState w) Fault Refusal) (s : CoreState w) :
    Host.Outcome (CoreState w) Fault Refusal :=
  if s.phase ∈ legal then body s else .next (raiseFault .illegalPhase s)

/-- The core's outcome as the machine's: the environment's part of the state stays. -/
def onCore (f : CoreState Config.codeWidth → Host.Outcome (CoreState Config.codeWidth) Fault Refusal) (s : State) :
    Host.Outcome State Fault Refusal :=
  match f s.toCoreState with
  | .next c => .next { s with toCoreState := c }
  | .fault r => .fault r
  | .refused r => .refused r

end Sys2Proof.Machine
end

