-- ==== Sys2Proof/Machine/Byte.lean ====
section
/-! DEFINITION. The meaning of BYTE (42_byte.md). -/

namespace Sys2Proof.Machine

variable {w : Nat}

/-- BYTE in READY: the first byte seeds the prefix (42_byte.md R116). -/
def byteSeed (b : Byte) (s : CoreState w) : CoreState w := setPrefix (literalCode w b) s

/-- BYTE in RUN on a miss: emit the old prefix, learn the pair if there is room, restart from `c`
(42_byte.md R118, R119, R121). -/
def byteMiss (p : Code w) (c : Byte) (s : CoreState w) : CoreState w :=
  setPrefix (literalCode w c) (insert p c (emit p s))

/-- BYTE in RUN, by the answer of the search: extend the prefix on a hit (42_byte.md R117), emit and restart on a miss. -/
def byteFound (p : Code w) (c : Byte) (s : CoreState w) : Option (Code w) → CoreState w
  | some idx => setPrefix idx s
  | none => byteMiss p c s

/-- BYTE in RUN with prefix `p` (42_byte.md R115). -/
def byteRun (c : Byte) (s : CoreState w) (p : Code w) : CoreState w := byteFound p c s (search s p c)

/-- BYTE at any width (42_byte.md R115, R120). -/
def byteCommand (b : Byte) : CoreState w → Host.Outcome (CoreState w) Fault Refusal :=
  accepted (inPhases [.ready, .run] fun s =>
    if s.phase = .ready then .next (byteSeed b s) else withPrefix s (byteRun b s))

/-- BYTE. -/
def execByte (b : Byte) (s : State) : Host.Outcome State Fault Refusal := onCore (byteCommand b) s

end Sys2Proof.Machine
end

