-- ==== Sys2Proof/Machine/Eos.lean ====
section
/-! DEFINITION. The meaning of EOS (43_eos.md). -/

namespace Sys2Proof.Machine

variable {w : Nat}

/-- EOS in READY: empty input, nothing but the phase changes (43_eos.md R130). -/
def eosEmpty (s : CoreState w) : CoreState w := { s with phase := .done }

/-- EOS in RUN: flush the pending prefix, which becomes undefined (43_eos.md R131). DESIGN CHOICE (log entry 30): the phase is
DONE at once, while the flushed code may still wait. -/
def eosFlush (s : CoreState w) (p : Code w) : CoreState w := { emit p s with phase := .done, currentPrefixCode := none }

/-- EOS at any width (43_eos.md R129, R132). -/
def eosCommand : CoreState w → Host.Outcome (CoreState w) Fault Refusal :=
  accepted (inPhases [.ready, .run] fun s =>
    if s.phase = .ready then .next (eosEmpty s) else withPrefix s (eosFlush s))

/-- EOS. -/
def execEos (s : State) : Host.Outcome State Fault Refusal := onCore eosCommand s

end Sys2Proof.Machine
end

