-- ==== Sys2Proof/Machine/Reserved.lean ====
section
/-! DEFINITION. The meaning of the reserved opcode (60_exceptions.md R164, R168). -/

namespace Sys2Proof.Machine

variable {w : Nat}

/-- The reserved opcode at any width: ILLEGAL_OPCODE, whatever the phase (60_exceptions.md R168). -/
def reservedCommand : CoreState w → Host.Outcome (CoreState w) Fault Refusal :=
  accepted fun s => .next (raiseFault .illegalOpcode s)

/-- The reserved opcode. -/
def execReserved (s : State) : Host.Outcome State Fault Refusal := onCore reservedCommand s

end Sys2Proof.Machine
end

