-- ==== Sys2Proof/Machine/Start.lean ====
section
/-! DEFINITION. The meaning of START (41_start.md). -/

namespace Sys2Proof.Machine

variable {w : Nat}

/-- START in IDLE or DONE: the document's step 1 (41_start.md R110). -/
def startRun (s : CoreState w) : CoreState w :=
  { createLiterals s with nextCode := BitVec.ofNat (w + 1) Config.alphabetSize, out := [], phase := .ready }

/-- START at any width (41_start.md R110, R112). -/
def startCommand : CoreState w → Host.Outcome (CoreState w) Fault Refusal :=
  accepted (inPhases [.idle, .done] fun s => .next (startRun s))

/-- START. -/
def execStart (s : State) : Host.Outcome State Fault Refusal := onCore startCommand s

end Sys2Proof.Machine
end

