-- ==== Sys2Proof/Syntax.lean ====
section
/-! DEFINITION. The commands: one constructor for each row of spec/opcode_table.json. -/

namespace Sys2Proof

/-- A command as the core sees it once decoded. `EOS`, `START` and the reserved opcode have no operand: their `arg` bits
are ignored (30_encoding.md R79), log entry 19. -/
inductive Instr where
  /-- `BYTE b`: the next byte of the input stream (30_encoding.md R73). -/
  | byte (b : Byte)
  /-- `EOS`: the input stream is exhausted (30_encoding.md R74). -/
  | eos
  /-- `START`: begin a compression run (30_encoding.md R75). -/
  | start
  /-- The reserved opcode `0b11` (30_encoding.md R76). -/
  | reserved
  deriving DecidableEq, Repr

end Sys2Proof
end

