-- ==== Sys2Proof/Machine/Dispatch.lean ====
section
/-! DEFINITION. One arm per command. -/

namespace Sys2Proof.Machine

/-- The command step of a presented command (00_scope.md R13). -/
def exec (i : Instr) (s : State) : Host.Outcome State Fault Refusal :=
  match i with
  | .byte b => Sys2Proof.Machine.execByte b s
  | .eos => Sys2Proof.Machine.execEos s
  | .start => Sys2Proof.Machine.execStart s
  | .reserved => Sys2Proof.Machine.execReserved s

end Sys2Proof.Machine
end

