-- ==== Sys2Proof/WellFormed.lean ====
section
/-! DEFINITION. What a number or a command must satisfy to be one of this core's. -/

namespace Sys2Proof

/-- Every term of `Instr` is a command of the core: all 256 bytes are legal operands (30_encoding.md R73,
60_exceptions.md R162) and decoding is total (R77), so the operand's type is the whole check. -/
def Instr.wellFormed : Instr → Bool
  | .byte _ => true
  | .eos => true
  | .start => true
  | .reserved => true

/-- A number that fits the 10 wires of `cmd` (30_encoding.md R72). -/
def isCommandWord (n : Nat) : Bool := n < 2 ^ 10

/-- A number that is a byte value (00_scope.md R9). -/
def isByteValue (n : Nat) : Bool := n < 2 ^ 8

end Sys2Proof
end

