-- ==== Sys2Proof/Decode.lean ====
section
/-! DEFINITION. The command word's fields, the opcode map, the decoder and the encoder (30_encoding.md R72 to R79). -/

namespace Sys2Proof

/-- `op = cmd[9:8]` (30_encoding.md R72). -/
def opField (w : CommandWord) : BitVec 2 := w.extractLsb' 8 2

/-- `arg = cmd[7:0]` (30_encoding.md R72). -/
def argField (w : CommandWord) : Byte := w.extractLsb' 0 8

/-- The decoder, total on command words (30_encoding.md R77). -/
def decode (w : CommandWord) : Instr :=
  if opField w = 0b00 then .byte (argField w)
  else if opField w = 0b01 then .eos
  else if opField w = 0b10 then .start
  else .reserved

/-- Why a number is not decoded. -/
inductive DecodeError where
  /-- The number does not fit the 10-bit command word (30_encoding.md R72: "There is no other format"). -/
  | widerThanCommandWord
  deriving DecidableEq, Repr

/-- The decoder on any number. -/
def decodeNumber (n : Nat) : Except DecodeError Instr :=
  if isCommandWord n then .ok (decode (BitVec.ofNat 10 n)) else .error .widerThanCommandWord

/-- The command the decoder reads from an opcode-table word. All rows are one 10-bit word, so the row's width says
nothing more. -/
def decodeTableWord (_nbits w : Nat) : Option Instr := (decodeNumber w).toOption

/-- The opcode of a command (30_encoding.md R77). -/
def opcodeOf : Instr → BitVec 2
  | .byte _ => 0b00
  | .eos => 0b01
  | .start => 0b10
  | .reserved => 0b11

/-- The `arg` bits of a command: the byte of `BYTE`, else zero, as the environment should drive them
(30_encoding.md R79). -/
def argOf : Instr → Byte
  | .byte b => b
  | .eos => 0
  | .start => 0
  | .reserved => 0

/-- The encoder: the command word of a command (30_encoding.md R72 to R76). -/
def encode (i : Instr) : CommandWord := opcodeOf i ++ argOf i

/-- A row of the opcode map: mnemonic, match and mask (30_encoding.md R73 to R76, spec/opcode_table.json). -/
structure OpcodeRow where
  mnemonic : String
  pattern : CommandWord
  mask : CommandWord
  deriving DecidableEq, Repr

/-- The opcode map. -/
def opcodeTable : List OpcodeRow :=
  [⟨"BYTE", 0x000, 0x300⟩, ⟨"EOS", 0x100, 0x300⟩, ⟨"START", 0x200, 0x300⟩, ⟨"RESERVED", 0x300, 0x300⟩]

/-- A word selects a row when it agrees with the row's match under its mask. -/
def OpcodeRow.selects (r : OpcodeRow) (w : CommandWord) : Bool := w &&& r.mask == r.pattern

/-- The mnemonic of a command. -/
def mnemonicOf : Instr → String
  | .byte _ => "BYTE"
  | .eos => "EOS"
  | .start => "START"
  | .reserved => "RESERVED"

end Sys2Proof
end

