-- ==== Sys2Proof/Machine/Ports.lean ====
section
/-! DEFINITION. What happens at the ports at one moment (30_encoding.md R71, R82; 60_exceptions.md R168;
70_reset_and_hazards.md R190). -/

namespace Sys2Proof.Machine

/-- What one moment at the ports does to the core. -/
inductive PortEvent where
  /-- `rst` is asserted. -/
  | reset
  /-- The waiting code is transferred. -/
  | transfer
  /-- A command word is presented and no code waits. -/
  | command (word : CommandWord)
  /-- Nothing happens. -/
  | wait
  deriving DecidableEq, Repr

/-- RESET before everything (60_exceptions.md R168); a waiting code before any command, which is not accepted at the
moment of the transfer because `cmd_ready` is still 0 (30_encoding.md R71, R82), log entry 13. -/
def portEvent (m : PortInputs) (s : State) : PortEvent :=
  if m.rst then .reset
  else if codeValid s.toCoreState then (if m.codeReady then .transfer else .wait)
  else if m.cmdValid then .command m.cmd
  else .wait

/-- The machine once a moment has passed: the remaining moments, and a fresh index for free values. -/
def State.advance (rest : List PortInputs) (s : State) : State :=
  { s with inputs := rest, freeIndex := s.freeIndex + 1 }

/-- The RESET event of the machine. -/
def State.resetEvent (s : State) : State :=
  { s with toCoreState := resetCore (Config.freeNextCode _ s.freeIndex) }

/-- The transfer of the machine's waiting code. -/
def State.transferEvent (s : State) : State := { s with toCoreState := transfer s.toCoreState }

/-- The command word accepted at the next moment, if one is: `cmd_valid` and `cmd_ready` are both 1 and there is no RESET
(30_encoding.md R71, 60_exceptions.md R168). -/
def acceptedWord (s : State) : Option CommandWord :=
  match s.inputs with
  | [] => none
  | m :: _ => if !m.rst && m.cmdValid && cmdReady s.toCoreState then some m.cmd else none

/-- The code transferred at the next moment, if one is: `code_valid` and `code_ready` are both 1 and there is no RESET
(30_encoding.md R82, 70_reset_and_hazards.md R190). -/
def transferredCode (s : State) : Option (Code Config.codeWidth) :=
  match s.inputs with
  | [] => none
  | m :: _ => if !m.rst && m.codeReady && codeValid s.toCoreState then s.pending else none

/-- The moment at which the environment presents a command word and holds `code_ready` at 0. -/
def presenting (word : CommandWord) : PortInputs := ⟨false, true, word, false⟩

/-- The moment at which the environment only accepts a code. -/
def accepting : PortInputs := ⟨false, false, 0, true⟩

/-- The moment at which the environment asserts reset. -/
def resetting : PortInputs := ⟨true, false, 0, false⟩

end Sys2Proof.Machine
end

