-- ==== Sys2Proof/Machine/Step.lean ====
section
/-! DEFINITION. One step of the machine: the next moment at the ports. -/

namespace Sys2Proof.Machine

/-- With no moment left the core waits and keeps all its state (60_exceptions.md R171, R173), log entry 12. -/
def step (s : State) : Host.Outcome State Fault Refusal :=
  match s.inputs with
  | [] => .next s
  | m :: rest =>
    match portEvent m s with
    | .reset => .next (s.advance rest).resetEvent
    | .transfer => .next (s.advance rest).transferEvent
    | .command word => exec (decode word) (s.advance rest)
    | .wait => .next (s.advance rest)

/-- The machine with the command word presented at its next moment. No code may be waiting, or the word is not accepted;
log entry 27. -/
def State.withFetchWord (s : State) (_nbits w : Nat) : State :=
  { s with pending := none, inputs := presenting (BitVec.ofNat 10 w) :: s.inputs }

end Sys2Proof.Machine
end

