-- ==== Sys2Proof/Machine/Contract.lean ====
section
/-! DEFINITION. Runs of commands at any code width, the contract function `compress` as the spec writes it apart from the
machine (44_run_contract.md R135), and the expansion of a code (40_table_and_search.md R101). The step uses none of
these: they are what claims are stated with. -/

namespace Sys2Proof.Machine

variable {w : Nat}

/-- The command step of a command on a core of any width. -/
def command (i : Instr) (s : CoreState w) : Host.Outcome (CoreState w) Fault Refusal :=
  match i with
  | .byte b => byteCommand b s
  | .eos => eosCommand s
  | .start => startCommand s
  | .reserved => reservedCommand s

/-- The commands executed one after another, each emitted code accepted before the next command
(20_memory.md R61, R65). -/
def runCommands : List Instr → CoreState w → Host.Outcome (CoreState w) Fault Refusal
  | [], s => .next s
  | i :: rest, s =>
    match command i s with
    | .next t => runCommands rest (transfer t)
    | .fault r => .fault r
    | .refused r => .refused r

/-- The state after an outcome, if there is one. -/
def nextState {σ φ ρ : Type} : Host.Outcome σ φ ρ → Option σ
  | .next t => some t
  | .fault _ => none
  | .refused _ => none

/-- A run that has been started and given some bytes but not its EOS. -/
def openRun (bs : List Byte) : List Instr := .start :: bs.map .byte

/-- `COMPRESS b0 … bn-1` (30_encoding.md R84). -/
def compressCommands (bs : List Byte) : List Instr := openRun bs ++ [.eos]

/-- `go` of 44_run_contract.md R135. `learnt` lists the pairs in order of allocation, so code `256 + k` is its `k`-th
element and `n` is `256 + learnt.length`. Codes are plain integers here. -/
def compressGo (w : Nat) : List Byte → List (Nat × Byte) → Nat → List Nat → List Nat
  | [], _, p, out => out ++ [p]
  | c :: rest, learnt, p, out =>
    match learnt.findIdx? (· == (p, c)) with
    | some k => compressGo w rest learnt (Config.alphabetSize + k) out
    | none =>
      if Config.alphabetSize + learnt.length < Config.tableSize w then
        compressGo w rest (learnt ++ [(p, c)]) c.toNat (out ++ [p])
      else compressGo w rest learnt c.toNat (out ++ [p])

/-- `compress` of 44_run_contract.md R135 at code width `w`. -/
def compress (w : Nat) : List Byte → List Nat
  | [] => []
  | b :: rest => compressGo w rest [] b.toNat []

/-- `Expand` with a bound on the length of the chain. -/
def expandChain (s : CoreState w) : (fuel : Nat) → (a : Nat) → Option (List Byte)
  | 0, _ => none
  | n + 1, a =>
    match memRead s a with
    | some (.literal b) => some [b]
    | some (.pair e) => (expandChain s n e.prefixCode.toNat).map (· ++ [e.nextByte])
    | none => none

/-- `Expand(a)` (40_table_and_search.md R101). A prefix is a smaller code (44_run_contract.md R145), so a chain from `a`
has at most `a + 1` codes. -/
def expand (s : CoreState w) (a : Nat) : Option (List Byte) := expandChain s (a + 1) a

/-- The concatenation of the expansions of a list of codes (44_run_contract.md R149). -/
def expandAll (s : CoreState w) : List (Code w) → Option (List Byte)
  | [] => some []
  | v :: rest =>
    match expand s v.toNat, expandAll s rest with
    | some x, some y => some (x ++ y)
    | _, _ => none

/-- How many of the given bytes are misses, when they are given to the core one after another in RUN
(44_run_contract.md R148). -/
def countMisses : List Byte → CoreState w → Nat
  | [], _ => 0
  | c :: rest, s =>
    match s.currentPrefixCode, nextState (command (.byte c) s) with
    | some p, some t => (if found (search s p c) then 0 else 1) + countMisses rest (transfer t)
    | _, _ => 0

end Sys2Proof.Machine
end

