-- ==== Sys2Proof/Machine/Trace.lean ====
section
/-! DEFINITION. What passes over the ports in the next `n` steps: the command words accepted and the codes transferred.
The step uses neither; claims about whole runs do. -/

namespace Sys2Proof.Machine

/-- The command words accepted in the next `n` steps, in order (20_memory.md R65). -/
def acceptedWords : Nat → State → List CommandWord
  | 0, _ => []
  | n + 1, s =>
    (acceptedWord s).toList ++
      match nextState (step s) with
      | some t => acceptedWords n t
      | none => []

/-- The codes transferred in the next `n` steps, in order (20_memory.md R65). -/
def transferredCodes : Nat → State → List (Code Config.codeWidth)
  | 0, _ => []
  | n + 1, s =>
    (transferredCode s).toList ++
      match nextState (step s) with
      | some t => transferredCodes n t
      | none => []

/-- `n` steps of the machine, stopping at the first fault or refusal. -/
def steps : Nat → State → Host.Outcome State Fault Refusal
  | 0, s => .next s
  | n + 1, s =>
    match step s with
    | .next t => steps n t
    | .fault r => .fault r
    | .refused r => .refused r

/-- The state with no code waiting: what is left of it once "emission with transfer" are identified
(10_state.md R38). -/
def settled (s : State) : CoreState Config.codeWidth := transfer s.toCoreState

/-- A command presented and its code, if it emits one, accepted at the moment after. -/
def commandMoments (i : Instr) : List PortInputs := [presenting (encode i), accepting]

end Sys2Proof.Machine
end

