-- ==== Sys2Proof/Machine/Assembly.lean ====
section
/-! DEFINITION. The textual form of a command sequence and its pseudo-command (30_encoding.md R83, R84), as characters,
as lines and as moments at the ports. -/

namespace Sys2Proof.Machine

/-- A line of a command sequence; values are not yet checked to be bytes (30_encoding.md R83, R84). -/
inductive Line where
  | start
  | byte (value : Nat)
  | eos
  /-- The directive that stands for the RESET event. -/
  | reset
  | compress (values : List Nat)
  deriving DecidableEq, Repr

/-- Every value of a line is 0..255 (30_encoding.md R83). -/
def Line.wellFormed : Line → Bool
  | .start => true
  | .byte v => isByteValue v
  | .eos => true
  | .reset => true
  | .compress vs => vs.all isByteValue

/-- What a line makes the environment do: a command (`some`) or a reset (`none`), in order. -/
def Line.events : Line → List (Option Instr)
  | .start => [some .start]
  | .byte v => [some (.byte (BitVec.ofNat 8 v))]
  | .eos => [some .eos]
  | .reset => [none]
  | .compress vs => (compressCommands (vs.map (BitVec.ofNat 8))).map some

/-- The moments at the ports for a list of events, each code accepted at once. -/
def momentsOf (events : List (Option Instr)) : List PortInputs :=
  events.flatMap fun
    | some i => commandMoments i
    | none => [resetting]

/-- The moments of a command sequence. -/
def Line.program (lines : List Line) : List PortInputs := momentsOf (lines.flatMap Line.events)

/-! ### From characters. What R83 and R84 do not settle is log entry 24 (blanks, digits, comments, several values on a line),
28 (`#` in quotes) and 29 (a double quote in a text). -/

/-- A blank between the parts of a line. -/
def isBlank (c : Char) : Bool := c == ' ' || c == '\t'

/-- Nothing is left of the line but blanks and a comment. -/
def lineEnds (cs : List Char) : Bool :=
  match cs.dropWhile isBlank with
  | [] => true
  | c :: _ => c == '#'

/-- A value or keyword ends here. -/
def atBoundary (cs : List Char) : Bool :=
  match cs with
  | [] => true
  | c :: _ => isBlank c || c == '#'

/-- The value of a digit in a base up to 16. -/
def digitValue (base : Nat) (c : Char) : Option Nat :=
  let n := c.toNat
  let v :=
    if 48 ≤ n ∧ n ≤ 57 then n - 48
    else if 65 ≤ n ∧ n ≤ 70 then n - 55
    else if 97 ≤ n ∧ n ≤ 102 then n - 87
    else base
  if v < base then some v else none

/-- The number that the leading digits spell, and the characters after them. -/
def readDigits (base acc : Nat) : List Char → Nat × List Char
  | [] => (acc, [])
  | c :: cs =>
    match digitValue base c with
    | some d => readDigits base (acc * base + d) cs
    | none => (acc, c :: cs)

/-- A number of at least one digit. -/
def readNumber (base : Nat) (cs : List Char) : Option (Nat × List Char) :=
  match cs with
  | [] => none
  | c :: _ => if (digitValue base c).isSome then some (readDigits base 0 cs) else none

/-- A printable ASCII character. -/
def isPrintable (c : Char) : Bool := 32 ≤ c.toNat && c.toNat ≤ 126

/-- A value: hexadecimal, a quoted character, or decimal (30_encoding.md R83). DESIGN CHOICE (log entry 28): a `#` between
single quotes is the character and begins no comment, where R83 says both. -/
def readValue : List Char → Option (Nat × List Char)
  | '0' :: 'x' :: rest => readNumber 16 rest
  | '\'' :: c :: '\'' :: rest => if isPrintable c then some (c.toNat, rest) else none
  | cs => readNumber 10 cs

/-- Values up to the end of the line; `fuel` is at least the number of characters. -/
def readValues : (fuel : Nat) → List Char → Option (List Nat)
  | 0, _ => none
  | n + 1, cs =>
    if lineEnds cs then some []
    else
      match readValue (cs.dropWhile isBlank) with
      | some (v, rest) => if atBoundary rest then (readValues n rest).map (v :: ·) else none
      | none => none

/-- The characters of a quoted text, and what follows the closing quote (30_encoding.md R84). DESIGN CHOICE: a `#` in the text
is a character and begins no comment (log entry 28); the first double quote ends the text, there is no escape, so a text
holds no double quote (log entry 29). -/
def readText : List Char → Option (List Nat × List Char)
  | [] => none
  | c :: cs =>
    if c == '\"' then some ([], cs)
    else if isPrintable c then (readText cs).map fun r => (c.toNat :: r.1, r.2)
    else none

/-- The operands of COMPRESS: byte values or one quoted text (30_encoding.md R84). -/
def readOperands (cs : List Char) : Option (List Nat) :=
  match cs.dropWhile isBlank with
  | '\"' :: rest =>
    match readText rest with
    | some (vs, after) => if lineEnds after then some vs else none
    | none => none
  | rest => readValues (rest.length + 1) rest

/-- What follows a keyword, when the line begins with it. -/
def afterKeyword (k : String) (cs : List Char) : Option (List Char) :=
  let rest := cs.drop k.toList.length
  if k.toList.isPrefixOf cs && atBoundary rest then some rest else none

/-- One line of text: `some none` for a line that says nothing, `none` for a line that is not of the form. -/
def readLine (text : List Char) : Option (Option Line) :=
  let cs := text.dropWhile isBlank
  let plain (rest : List Char) (l : Line) : Option (Option Line) := if lineEnds rest then some (some l) else none
  if lineEnds cs then some none
  else
    match afterKeyword "START" cs, afterKeyword "EOS" cs, afterKeyword "RESET" cs, afterKeyword "BYTE" cs,
      afterKeyword "COMPRESS" cs with
    | some rest, _, _, _, _ => plain rest .start
    | _, some rest, _, _, _ => plain rest .eos
    | _, _, some rest, _, _ => plain rest .reset
    | _, _, _, some rest, _ =>
      match readValue (rest.dropWhile isBlank) with
      | some (v, after) => if atBoundary after then plain after (.byte v) else none
      | none => none
    | _, _, _, _, some rest => (readOperands rest).map fun vs => some (.compress vs)
    | none, none, none, none, none => none

/-- The lines of a text. -/
def splitLines : List Char → List (List Char)
  | [] => [[]]
  | c :: cs =>
    if c == '\n' then [] :: splitLines cs
    else
      match splitLines cs with
      | [] => [[c]]
      | l :: ls => (c :: l) :: ls

/-- A command sequence in text; refused when a line is not of the form or a value is no byte. -/
def readProgram (text : String) : Option (List Line) :=
  match (splitLines text.toList).mapM readLine with
  | some ls => if (ls.filterMap id).all Line.wellFormed then some (ls.filterMap id) else none
  | none => none

end Sys2Proof.Machine
end

