-- ==== Sys2Proof/Safety.lean ====
section
/-! DEFINITION. What a safe run keeps, in the terms claims use: the invariants of 44_run_contract.md section 3 and the
end of a run (70_reset_and_hazards.md R195). -/

namespace Sys2Proof.Safety

open Sys2Proof.Machine

variable {w : Nat}

/-- A run exists: the phases over which 44_run_contract.md section 3 states its invariants. -/
def inRun (s : CoreState w) : Prop := s.phase = .ready ∨ s.phase = .run ∨ s.phase = .done

/-- What holds from the START of a run on (44_run_contract.md R143 to R148, R151). -/
structure RunInv (s : CoreState w) : Prop where
  /-- The literal region is the identity (10_state.md R27). -/
  literals : s.literalsPresent = true
  /-- R143, the lower bound. -/
  next_code_low : Config.alphabetSize ≤ s.nextCode.toNat
  /-- R143, the upper bound. -/
  next_code_high : s.nextCode.toNat ≤ Config.tableSize w
  /-- R144. -/
  prefix_populated : ∀ p, s.currentPrefixCode = some p → p.toNat < s.nextCode.toNat
  /-- R145. -/
  entries_below : ∀ a, Config.alphabetSize ≤ a → a < s.nextCode.toNat →
    ∃ e, memRead s a = some (.pair e) ∧ e.prefixCode.toNat < a
  /-- R146. -/
  entries_unique : ∀ a b, Config.alphabetSize ≤ a → a < b → b < s.nextCode.toNat → memRead s a ≠ memRead s b
  /-- R147. -/
  outputs_populated : ∀ v ∈ s.out, v.toNat < s.nextCode.toNat
  /-- R148: while the run is open every emitted code is a miss's, and each miss learnt an entry while there was room. -/
  count_open : s.phase ≠ .done → s.nextCode.toNat = Config.alphabetSize + min s.out.length (Config.learnable w)
  /-- R148: at the end the flush has added one code to a non-empty output. -/
  count_done : s.phase = .done → s.nextCode.toNat = Config.alphabetSize + min (s.out.length - 1) (Config.learnable w)
  /-- R151: the prefix fields of the entries are the first codes of the output. -/
  entries_record_output : ∀ k e, memRead s (Config.alphabetSize + k) = some (.pair e) → s.out[k]? = some e.prefixCode
  /-- A fresh run has emitted nothing (41_start.md R110). -/
  ready_fresh : s.phase = .ready → s.out = []

/-- What holds of the core between any two steps. -/
structure CoreInv (s : CoreState w) : Prop where
  /-- The table RAM is in its canonical form. -/
  table_wf : Memory.wf s.table
  /-- The prefix has a value exactly in RUN (10_state.md R23, R24). -/
  prefix_exactly_in_run : s.currentPrefixCode.isSome = true ↔ s.phase = .run
  /-- `fault_cause` is not zero exactly in FAULT (10_state.md R37). -/
  cause_exactly_in_fault : s.faultCause ≠ .noFault ↔ s.phase = .fault
  /-- A waiting code is the last one emitted, in RUN or DONE (30_encoding.md R82). -/
  pending_is_last : ∀ v, s.pending = some v → (s.phase = .run ∨ s.phase = .done) ∧ s.out.getLast? = some v
  /-- No code has been emitted in IDLE (10_state.md R41). -/
  idle_empty : s.phase = .idle → s.out = []
  /-- The invariants of a run. -/
  run : inRun s → RunInv s

/-- The machine's invariant. -/
def MachineInv (s : State) : Prop := CoreInv s.toCoreState

/-- A run is over: DONE, and every code transferred (70_reset_and_hazards.md R195). -/
def runOver (s : State) : Bool := isDone s.toCoreState && !codeValid s.toCoreState

/-- The phases in which a command is legal (30_encoding.md R77). -/
def legalPhases : Instr → List Phase
  | .byte _ => [.ready, .run]
  | .eos => [.ready, .run]
  | .start => [.idle, .done]
  | .reserved => []

/-- The transition table of `phase` (10_state.md R33), its columns BYTE, EOS, START and reserved. -/
def phaseAfter : Instr → Phase → Phase
  | .byte _, .ready => .run
  | .byte _, .run => .run
  | .byte _, _ => .fault
  | .eos, .ready => .done
  | .eos, .run => .done
  | .eos, _ => .fault
  | .start, .idle => .ready
  | .start, .done => .ready
  | .start, _ => .fault
  | .reserved, _ => .fault

/-- From `s` to `t` a protocol fault was taken: `fault_cause` and `phase` are written and no other field named here
(60_exceptions.md R165). `current_prefix_code` is left out: the model drops it (log entry 7, DEDUCED from 10_state.md R24 and
60_exceptions.md R166), and `CoreInv` says that it has no value in FAULT. -/
structure FaultTaken (cause : FaultCause) (s t : State) : Prop where
  phase : t.phase = .fault
  cause : t.faultCause = cause
  next_code : t.nextCode = s.nextCode
  literals : t.literalsPresent = s.literalsPresent
  table : t.table = s.table
  out : t.out = s.out
  pending : t.pending = s.pending
  inputs : t.inputs = s.inputs
  free_index : t.freeIndex = s.freeIndex

/-- The core can begin a run: IDLE or DONE, and no code waits. -/
def canStart (s : CoreState w) : Prop := (s.phase = .idle ∨ s.phase = .done) ∧ s.pending = none

/-- No RESET among the next `n` moments. -/
def noReset (n : Nat) (s : State) : Prop := ∀ m ∈ s.inputs.take n, m.rst = false

end Sys2Proof.Safety
end

