-- ==== Sys2Proof/Certificates/Slice0/Obligations.lean ====
section
/-! DEFINITION. The statements for the provers. Where a statement quantifies over `w`, it is about a core of any admitted
code width (00_scope.md R10); where it speaks of `exec` and `step`, it is about this hardware's machine. -/

open Sys2Proof Sys2Proof.Machine Sys2Proof.Safety

/-! ### Encoding -/

/-- The words of 95_test_vectors.md V32 to V39, and two of its programs' words. -/
def Obligations.VectorWordsDecode : Prop :=
  decode 0b0000000000 = .byte 0x00 ∧ decode 0b0011111111 = .byte 0xFF ∧ decode 0b0001000001 = .byte 0x41 ∧
  decode 0b0100000000 = .eos ∧ decode 0b0111111111 = .eos ∧
  decode 0b1000000000 = .start ∧ decode 0b1010100101 = .start ∧
  decode 0b1100000000 = .reserved ∧ decode 0b1111111111 = .reserved

/-- Decode and encode agree, and a number stands for a command exactly when it is a 10-bit word with the command's opcode
in bits 9:8 and, for BYTE, its byte in bits 7:0 (30_encoding.md R72 to R77). -/
def Obligations.DecodeEncodeAgree : Prop :=
  ∀ (nbits : Nat) (i : Instr), i.wellFormed = true →
    decodeTableWord nbits (encode i).toNat = some i ∧
    ∀ n : Nat, decodeTableWord nbits n = some i ↔
      (n < 1024 ∧ n / 256 = (opcodeOf i).toNat ∧ ∀ b, i = .byte b → n % 256 = b.toNat)

/-- Every 10-bit word selects exactly one row of the opcode map, the row of the command it decodes to
(30_encoding.md R77). -/
def Obligations.EveryWordSelectsOneRow : Prop :=
  ∀ v : CommandWord, ∃ r ∈ opcodeTable, r.selects v = true ∧ r.mnemonic = mnemonicOf (decode v) ∧
    ∀ r' ∈ opcodeTable, r'.selects v = true → r' = r

/-- 30_encoding.md R79: (a) the reserved opcode faults, (b) a defined opcode in a phase that does not admit it faults,
(c) `arg` of every opcode but BYTE has no effect. -/
def Obligations.ReservedIllegalAndIgnoredEncodings : Prop :=
  (∀ (v : CommandWord) (s : State), opField v = 0b11 → cmdReady s.toCoreState = true →
    ∃ t, exec (decode v) s = .next t ∧ FaultTaken .illegalOpcode s t) ∧
  (∀ (v : CommandWord) (s : State), opField v ≠ 0b11 → cmdReady s.toCoreState = true →
    s.phase ∉ legalPhases (decode v) → ∃ t, exec (decode v) s = .next t ∧ FaultTaken .illegalPhase s t) ∧
  (∀ (v v' : CommandWord) (s : State), opField v = opField v' → opField v ≠ 0b00 →
    exec (decode v) s = exec (decode v') s)

/-! ### Operands and entries -/

/-- `Lit(b)` is the integer `b` itself, below 256, and always populated once a table exists
(40_table_and_search.md R90). -/
def Obligations.LiteralCodeIsTheByte : Prop :=
  ∀ (w : Nat) (_ : 8 ≤ w) (b : Byte), (literalCode w b).toNat = b.toNat ∧
    ∀ s : CoreState w, inRun s → RunInv s →
      (literalCode w b).toNat < s.nextCode.toNat ∧ memRead s (literalCode w b).toNat = some (.literal b)

/-- Two pairs are equal exactly when both components are, exactly when all bits of their storage words are; a literal is
never a pair (40_table_and_search.md R94). -/
def Obligations.EntryEqualityIsWordEquality : Prop :=
  ∀ (w : Nat) (p₁ p₂ : Code w) (c₁ c₂ : Byte) (b : Byte),
    ((Entry.pair ⟨p₁, c₁⟩ = Entry.pair ⟨p₂, c₂⟩) ↔ (p₁ = p₂ ∧ c₁ = c₂)) ∧
    ((Entry.pair ⟨p₁, c₁⟩ = Entry.pair ⟨p₂, c₂⟩) ↔
      (PairEntry.mk p₁ c₁).toWord = (PairEntry.mk p₂ c₂).toWord) ∧
    (Entry.literal b : Entry w) ≠ Entry.pair ⟨p₁, c₁⟩

/-- The storage word of a pair: prefix in the high bits, byte in the low eight, nothing else (10_state.md R30). -/
def Obligations.StorageWordLayout : Prop :=
  ∀ (w : Nat) (p : Code w) (c : Byte),
    (PairEntry.mk p c).toWord.toNat = p.toNat * 256 + c.toNat ∧
    PairEntry.ofWord (PairEntry.mk p c).toWord = ⟨p, c⟩ ∧
    ∀ v : BitVec (w + 8), (PairEntry.ofWord v).toWord = v

/-- The encodings of `phase`, each read back; 5, 6 and 7 stand for none (10_state.md R32). -/
def Obligations.PhaseEncodings : Prop :=
  Phase.encode .idle = 0b000 ∧ Phase.encode .ready = 0b001 ∧ Phase.encode .run = 0b010 ∧ Phase.encode .done = 0b011 ∧
  Phase.encode .fault = 0b100 ∧ (∀ p : Phase, Phase.ofEncoding p.encode = some p) ∧
  ∀ v : BitVec 3, 5 ≤ v.toNat → Phase.ofEncoding v = none

/-! ### The search engine and the counter -/

/-- `Search(p, c)` is the least code from 256 up to `next_code` that holds the pair, and a miss when there is none
(40_table_and_search.md R91). -/
def Obligations.SearchFindsLeastMatch : Prop :=
  ∀ (w : Nat) (_ : 8 ≤ w) (s : CoreState w) (p : Code w) (c : Byte), s.nextCode.toNat ≤ Config.tableSize w →
    (∀ idx : Code w, search s p c = some idx ↔
      (256 ≤ idx.toNat ∧ idx.toNat < s.nextCode.toNat ∧ memRead s idx.toNat = some (.pair ⟨p, c⟩) ∧
        ∀ a, 256 ≤ a → a < idx.toNat → memRead s a ≠ some (.pair ⟨p, c⟩))) ∧
    (search s p c = none ↔ ∀ a, 256 ≤ a → a < s.nextCode.toNat → memRead s a ≠ some (.pair ⟨p, c⟩))

/-- The scan answers what a content-addressed lookup of the whole RAM answers (40_table_and_search.md R95). -/
def Obligations.SearchIsContentLookup : Prop :=
  ∀ (w : Nat) (_ : 8 ≤ w) (s : CoreState w) (p : Code w) (c : Byte), s.nextCode.toNat ≤ Config.tableSize w →
    Memory.wf s.table →
    search s p c =
      (s.table.find? fun x => decide (x.1 < s.nextCode.toNat) && decide (x.2 = ⟨p, c⟩)).map fun x => BitVec.ofNat w x.1

/-- `Insert(p, c)` while there is room: the entry at the old `next_code`, `next_code` one more, and every other entry as
before (40_table_and_search.md R96); once the table is saturated, nothing (R97). -/
def Obligations.InsertLearnsUntilSaturated : Prop :=
  ∀ (w : Nat) (_ : 8 ≤ w) (s : CoreState w) (p : Code w) (c : Byte), 256 ≤ s.nextCode.toNat →
    (s.nextCode.toNat < Config.tableSize w →
      (insert p c s).nextCode.toNat = s.nextCode.toNat + 1 ∧
      memRead (insert p c s) s.nextCode.toNat = some (.pair ⟨p, c⟩) ∧
      (∀ a, a ≠ s.nextCode.toNat → memRead (insert p c s) a = memRead s a) ∧
      (full (insert p c s) = true ↔ s.nextCode.toNat = Config.tableSize w - 1) ∧
      { insert p c s with table := s.table, nextCode := s.nextCode } = s) ∧
    (s.nextCode.toNat = Config.tableSize w → insert p c s = s)

/-- An entry just inserted is found by the next search at its own code, when it was not in the table before
(20_memory.md R62); and `COMPRESS "AAA"` emits 65, 256. -/
def Obligations.SearchFindsTheInsertedEntry : Prop :=
  (∀ (w : Nat) (_ : 8 ≤ w) (s : CoreState w) (p : Code w) (c : Byte), 256 ≤ s.nextCode.toNat →
    s.nextCode.toNat < Config.tableSize w → search s p c = none →
    search (insert p c s) p c = some (BitVec.ofNat w s.nextCode.toNat)) ∧
  compress Config.codeWidth [0x41, 0x41, 0x41] = [65, 256] ∧
  ∀ s : CoreState Config.codeWidth, canStart s →
    ∃ t, runCommands (compressCommands [0x41, 0x41, 0x41]) s = .next t ∧ t.out = [65, 256]

/-! ### START -/

/-- START in IDLE or DONE: the literal region holds the identity, `next_code` is 256, `out` is empty, the phase is READY,
nothing else changes, and the table is saturated exactly at code width 8 (41_start.md R110). That `memRead` answers `none` from
256 on is the model's choice, not R110's: 10_state.md R29 leaves those entries unspecified, lets a model hold them as
absent, and log entry 5 (DESIGN CHOICE) does. -/
def Obligations.StartBeginsARun : Prop :=
  (∀ s : State, cmdReady s.toCoreState = true → (s.phase = .idle ∨ s.phase = .done) →
    exec .start s = .next { s with
      literalsPresent := true, nextCode := BitVec.ofNat _ 256, out := [], phase := .ready } ∧
    ∀ t, exec .start s = .next t →
      t.nextCode.toNat = 256 ∧ (∀ a, a < 256 → memRead t.toCoreState a = some (.literal (BitVec.ofNat 8 a))) ∧
      (∀ a, 256 ≤ a → memRead t.toCoreState a = none) ∧
      prefixValid t.toCoreState = false ∧ isDone t.toCoreState = false ∧ isFault t.toCoreState = false) ∧
  ∀ (w : Nat) (_ : 8 ≤ w) (s : CoreState w), canStart s →
    ∃ t, command .start s = .next t ∧ t.phase = .ready ∧ (full t = true ↔ w = 8)

/-! ### BYTE -/

/-- BYTE in READY seeds the prefix and does nothing else (42_byte.md R116). -/
def Obligations.FirstByteSeedsThePrefix : Prop :=
  ∀ (b : Byte) (s : State), cmdReady s.toCoreState = true → s.phase = .ready →
    exec (.byte b) s = .next { s with currentPrefixCode := some (literalCode _ b), phase := .run } ∧
    (literalCode Config.codeWidth b).toNat = b.toNat

/-- BYTE in RUN on a hit moves the prefix to the found code and changes nothing else; the new prefix is a learnt code
(42_byte.md R117). -/
def Obligations.ByteHitExtendsThePrefix : Prop :=
  ∀ (c : Byte) (s : State) (p idx : Code Config.codeWidth), cmdReady s.toCoreState = true → s.phase = .run →
    s.currentPrefixCode = some p → search s.toCoreState p c = some idx →
    exec (.byte c) s = .next { s with currentPrefixCode := some idx } ∧
    (s.nextCode.toNat ≤ Config.tableSize Config.codeWidth → 256 ≤ idx.toNat ∧ idx.toNat < s.nextCode.toNat)

/-- BYTE in RUN on a miss with room left: the old prefix is emitted, the pair of the old prefix and the byte is learnt at
the old `next_code`, the prefix restarts from the byte, and nothing else changes (42_byte.md R118, R121). -/
def Obligations.ByteMissEmitsAndLearns : Prop :=
  ∀ (c : Byte) (s : State) (p : Code Config.codeWidth), cmdReady s.toCoreState = true → s.phase = .run →
    s.currentPrefixCode = some p → search s.toCoreState p c = none → 256 ≤ s.nextCode.toNat →
    s.nextCode.toNat < Config.tableSize Config.codeWidth →
    ∃ t, exec (.byte c) s = .next t ∧
      t.out = s.out ++ [p] ∧ t.pending = some p ∧
      memRead t.toCoreState s.nextCode.toNat = some (.pair ⟨p, c⟩) ∧
      (∀ a, a ≠ s.nextCode.toNat → memRead t.toCoreState a = memRead s.toCoreState a) ∧
      t.nextCode.toNat = s.nextCode.toNat + 1 ∧
      t.currentPrefixCode = some (literalCode _ c) ∧ t.phase = .run ∧
      (full t.toCoreState = true ↔ s.nextCode.toNat = Config.tableSize Config.codeWidth - 1) ∧
      t.literalsPresent = s.literalsPresent ∧ t.faultCause = s.faultCause ∧ t.inputs = s.inputs ∧
      t.freeIndex = s.freeIndex

/-- BYTE in RUN on a miss while saturated: the old prefix is emitted and the prefix restarts from the byte; the table and
`next_code` do not change, and no fault is raised (42_byte.md R119). -/
def Obligations.ByteMissWhenSaturated : Prop :=
  ∀ (c : Byte) (s : State) (p : Code Config.codeWidth), cmdReady s.toCoreState = true → s.phase = .run →
    s.currentPrefixCode = some p → search s.toCoreState p c = none →
    s.nextCode.toNat = Config.tableSize Config.codeWidth →
    exec (.byte c) s = .next { s with
      out := s.out ++ [p], pending := some p, currentPrefixCode := some (literalCode _ c), phase := .run }

/-- 42_byte.md R122: a BYTE step emits at most one code and inserts at most one entry, and inserts only if it emits; one
that emits leaves a literal prefix, one that does not emit in RUN leaves a learnt one. -/
def Obligations.ByteEmitsAndInsertsAtMostOnce : Prop :=
  ∀ (b : Byte) (s t : State), MachineInv s → cmdReady s.toCoreState = true → (s.phase = .ready ∨ s.phase = .run) →
    exec (.byte b) s = .next t →
    ((t.out = s.out ∧ t.pending = none ∧ t.nextCode = s.nextCode ∧ t.table = s.table) ∨
     (∃ p, t.out = s.out ++ [p] ∧ t.pending = some p ∧
       ((t.nextCode = s.nextCode ∧ t.table = s.table) ∨
        (t.nextCode.toNat = s.nextCode.toNat + 1 ∧
          ∃ e, memRead t.toCoreState s.nextCode.toNat = some (.pair e) ∧
            ∀ a, a ≠ s.nextCode.toNat → memRead t.toCoreState a = memRead s.toCoreState a)))) ∧
    ∃ q, t.currentPrefixCode = some q ∧ (t.out ≠ s.out → q.toNat < 256) ∧
      (t.out = s.out → s.phase = .run → 256 ≤ q.toNat)

/-! ### EOS -/

/-- EOS in READY: nothing but the phase changes (43_eos.md R130). -/
def Obligations.EosOnEmptyInput : Prop :=
  ∀ s : State, cmdReady s.toCoreState = true → s.phase = .ready → exec .eos s = .next { s with phase := .done }

/-- EOS in RUN: the pending prefix is emitted, the phase is DONE, the prefix has no value, and nothing else changes
(43_eos.md R131). -/
def Obligations.EosFlushesThePrefix : Prop :=
  ∀ (s : State) (p : Code Config.codeWidth), cmdReady s.toCoreState = true → s.phase = .run →
    s.currentPrefixCode = some p →
    exec .eos s = .next { s with
      out := s.out ++ [p], pending := some p, phase := .done, currentPrefixCode := none }

/-! ### Protocol faults -/

/-- The reserved opcode raises ILLEGAL_OPCODE in every phase in which a command can be accepted (30_encoding.md R76).
`FaultTaken` says what else stays; it leaves out `current_prefix_code`, which the model drops in RUN (log entry 7, DEDUCED from
10_state.md R24 and 60_exceptions.md R166). -/
def Obligations.ReservedOpcodeFaults : Prop :=
  ∀ v : CommandWord, v &&& 0x300 = 0x300 → decode v = .reserved ∧
    ∀ s : State, cmdReady s.toCoreState = true →
      ∃ t, exec (decode v) s = .next t ∧ FaultTaken .illegalOpcode s t

/-- START in READY or RUN, BYTE and EOS in IDLE or DONE raise ILLEGAL_PHASE and write nothing else but, at most, the prefix; in
FAULT no command is accepted (41_start.md R112, 42_byte.md R120, 43_eos.md R132). Those rules let nothing else change;
`FaultTaken` leaves out `current_prefix_code`, which the model drops when START faults in RUN (log entry 7, DEDUCED from
10_state.md R24 and 60_exceptions.md R166). -/
def Obligations.OutOfPhaseCommandsFault : Prop :=
  ∀ s : State,
    (cmdReady s.toCoreState = true →
      ((s.phase = .ready ∨ s.phase = .run) → ∃ t, exec .start s = .next t ∧ FaultTaken .illegalPhase s t) ∧
      ((s.phase = .idle ∨ s.phase = .done) →
        (∀ b, ∃ t, exec (.byte b) s = .next t ∧ FaultTaken .illegalPhase s t) ∧
        ∃ t, exec .eos s = .next t ∧ FaultTaken .illegalPhase s t)) ∧
    (s.phase = .fault → ∀ i, exec i s = .next s)

/-- A fault is raised in exactly the two situations of 60_exceptions.md R164, with that rule's cause, the opcode before
the phase (R168). -/
def Obligations.FaultsExactlyWhenIllegal : Prop :=
  ∀ (i : Instr) (s : State), MachineInv s → cmdReady s.toCoreState = true →
    ∃ t, exec i s = .next t ∧
      (t.phase = .fault ↔ i = .reserved ∨ s.phase ∉ legalPhases i) ∧
      (t.faultCause.encode = 1 ↔ i = .reserved) ∧
      (t.faultCause.encode = 2 ↔ i ≠ .reserved ∧ s.phase ∉ legalPhases i)

/-- The FAULT phase: both handshake outputs are 0, the status says so, no command changes anything
(60_exceptions.md R166), and only RESET leaves it (R167). -/
def Obligations.FaultPhaseHoldsUntilReset : Prop :=
  ∀ s : State, s.phase = .fault →
    s.outputs.cmdReady = false ∧ s.outputs.codeValid = false ∧ s.outputs.stPhase = 0b100 ∧
    s.outputs.stFaultCause = s.faultCause.encode ∧
    (∀ i, exec i s = .next s) ∧
    ∃ t, step s = .next t ∧
      ((∃ m rest, s.inputs = m :: rest ∧ m.rst = true) → t.phase = .idle) ∧
      ((∀ m rest, s.inputs = m :: rest → m.rst = false) → t.toCoreState = s.toCoreState)

/-! ### RESET -/

/-- RESET takes precedence over everything else at its moment (60_exceptions.md R168) and leaves what
70_reset_and_hazards.md R190 says. Nothing is said of `next_code` and `T`, which are unspecified after it. The last clause, that
the step drops exactly this moment, is the model's bookkeeping and no part of R190 (log entry 4, DESIGN CHOICE). -/
def Obligations.ResetEvent : Prop :=
  ∀ (s : State) (m : PortInputs) (rest : List PortInputs), s.inputs = m :: rest → m.rst = true →
    acceptedWord s = none ∧ transferredCode s = none ∧
    ∃ t, step s = .next t ∧ t.phase = .idle ∧ t.faultCause = .noFault ∧ t.out = [] ∧ t.pending = none ∧
      t.outputs.codeValid = false ∧ t.currentPrefixCode = none ∧ t.inputs = rest

/-- The values R41's table gives after reset (10_state.md), the status outputs' reset column (R36) among them. `cmd_ready` is 1
by 30_encoding.md R71, the phase not being FAULT and no code waiting, and `code_valid` is 0 by R82, no code having been
emitted. Nothing is said of `next_code` and `T`, which are unspecified there. -/
def Obligations.StateAfterReset : Prop :=
  State.reset.phase = .idle ∧ State.reset.faultCause = .noFault ∧ State.reset.out = [] ∧
  State.reset.currentPrefixCode = none ∧
  State.reset.outputs.cmdReady = true ∧ State.reset.outputs.codeValid = false ∧
  State.reset.outputs.stPhase = 0b000 ∧ State.reset.outputs.stFull = 0 ∧ State.reset.outputs.stFaultCause = 0

/-! ### Control flow and the ports -/

/-- The transition table of `phase` (10_state.md R33): one row a phase, one column a command, RESET to IDLE from each. -/
def Obligations.PhaseTransitions : Prop :=
  (∀ (i : Instr) (s : State), MachineInv s → cmdReady s.toCoreState = true →
    ∃ t, exec i s = .next t ∧ t.phase = phaseAfter i s.phase ∧
      (phaseAfter i s.phase = .fault →
        t.faultCause = if i = .reserved then FaultCause.illegalOpcode else FaultCause.illegalPhase)) ∧
  (∀ (i : Instr) (s : State), s.phase = .fault → exec i s = .next s) ∧
  (∀ (s t : State), step s = .next t → acceptedWord s = none →
    t.phase = if (s.inputs.head?.map fun m => m.rst) = some true then .idle else s.phase)

/-- When the moment presents the word of a command and no code waits, the step is the command step of the decoded
command (00_scope.md R13, 30_encoding.md R71). What the step does around it is the model's own bookkeeping, no rule's: it drops
the moment (log entry 4, DESIGN CHOICE) and moves the free index on by one (log entry 3, DESIGN CHOICE). -/
def Obligations.StepRunsThePresentedCommand : Prop :=
  ∀ (i : Instr) (s : State) (m : PortInputs) (rest : List PortInputs), i.wellFormed = true →
    s.inputs = m :: rest → m.rst = false → m.cmdValid = true → codeValid s.toCoreState = false →
    decodeTableWord 10 m.cmd.toNat = some i →
    step s = exec i { s with inputs := rest, freeIndex := s.freeIndex + 1 } ∧
    (acceptedWord s = some m.cmd ↔ s.phase ≠ .fault)

/-- Only RESET and an accepted command change the core; at any other moment, whatever the environment drives, at most the
waiting code is transferred (30_encoding.md R71, 60_exceptions.md R171, R173). -/
def Obligations.OnlyAcceptedCommandsAct : Prop :=
  ∀ s : State, acceptedWord s = none → (∀ m rest, s.inputs = m :: rest → m.rst = false) →
    ∃ t, step s = .next t ∧ settled t = settled s ∧ t.pending = if (transferredCode s).isSome then none else s.pending

/-- A waiting code is presented and held unchanged until a moment at which `code_ready` is 1, and no command is accepted
before that (30_encoding.md R82, R71), nor at that moment itself: that `cmd_ready` is still 0 at the moment of the transfer is
the model's reading of the two rules (log entry 13, DEDUCED). -/
def Obligations.CodeHeldUntilTransferred : Prop :=
  ∀ (s : State) (v : Code Config.codeWidth) (m : PortInputs) (rest : List PortInputs), s.phase ≠ .fault →
    s.pending = some v → s.inputs = m :: rest → m.rst = false →
    s.outputs.codeValid = true ∧ s.outputs.code = v ∧ s.outputs.cmdReady = false ∧ acceptedWord s = none ∧
    ∃ t, step s = .next t ∧
      (m.codeReady = true → transferredCode s = some v ∧ t.toCoreState = { s.toCoreState with pending := none } ∧
        t.outputs.codeValid = false) ∧
      (m.codeReady = false → transferredCode s = none ∧ t.toCoreState = s.toCoreState ∧ t.outputs.codeValid = true ∧
        t.outputs.code = v)

/-- Within a run, what is transferred and what still waits is exactly what was emitted: every code once, in order
(20_memory.md R65, 30_encoding.md R82). -/
def Obligations.EmittedCodesAreTransferredOnceInOrder : Prop :=
  ∀ (n : Nat) (s t : State), MachineInv s → noReset n s → (∀ v ∈ acceptedWords n s, decode v ≠ .start) →
    steps n s = .next t →
    ∃ emitted, t.out = s.out ++ emitted ∧
      transferredCodes n s ++ t.pending.toList = s.pending.toList ++ emitted

/-- The status outputs outside FAULT, and in it the two that the spec gives (10_state.md R36, R34). R36 calls them valid
between command steps; that they show the state after the step also while its emitted code waits is the model's choice
(log entry 30, DESIGN CHOICE). -/
def Obligations.StatusOutputs : Prop :=
  ∀ s : State,
    s.outputs.stPhase = s.phase.encode ∧ s.outputs.stFaultCause = s.faultCause.encode ∧
    (s.phase = .idle → s.outputs.stFull = 0) ∧
    (inRun s.toCoreState →
      (s.outputs.stFull = 1 ↔ s.nextCode.toNat = 2 ^ Config.codeWidth) ∧
      (s.outputs.stFull = 0 ↔ s.nextCode.toNat ≠ 2 ^ Config.codeWidth) ∧
      s.outputs.stNextCode = s.nextCode)

/-! ### Frames -/

/-- What BYTE leaves unchanged. The entry it stores is at the address its insert computes, and only there. -/
def Obligations.ByteFrame : Prop :=
  ∀ (b : Byte) (s t : State), exec (.byte b) s = .next t →
    (∀ a', insertAddress s.toCoreState = some a' → ∀ a, a ≠ a' → Memory.read t.table a = Memory.read s.table a) ∧
    (insertAddress s.toCoreState = none → ∀ a, Memory.read t.table a = Memory.read s.table a) ∧
    (t.out = s.out → ∀ a, Memory.read t.table a = Memory.read s.table a) ∧
    (t.out = s.out → t.nextCode = s.nextCode ∧ t.pending = s.pending) ∧
    (t.phase ≠ .fault → t.faultCause = s.faultCause) ∧
    t.literalsPresent = s.literalsPresent ∧ t.inputs = s.inputs ∧ t.freeIndex = s.freeIndex

/-- What EOS, START and the reserved opcode leave unchanged: every entry of the pair RAM, and each register that the rule
of the command does not name. -/
def Obligations.EosStartReservedFrame : Prop :=
  ∀ (i : Instr) (s t : State), i = .eos ∨ i = .start ∨ i = .reserved → exec i s = .next t →
    (∀ a, Memory.read t.table a = Memory.read s.table a) ∧
    (t.phase ≠ .fault → t.faultCause = s.faultCause) ∧ t.inputs = s.inputs ∧ t.freeIndex = s.freeIndex ∧
    (i ≠ .start → t.nextCode = s.nextCode ∧ t.literalsPresent = s.literalsPresent) ∧
    (i ≠ .eos → t.pending = s.pending) ∧
    (i = .start → t.phase = .fault ∨ t.currentPrefixCode = s.currentPrefixCode) ∧
    (i = .reserved → t.out = s.out)

/-! ### Invariants -/

/-- The invariant holds after reset. -/
def Obligations.InvariantAtReset : Prop := MachineInv State.reset

/-- Every step keeps the invariant: R143 to R148 and R151 of 44_run_contract.md, the definedness of the prefix
(10_state.md R23), the meaning of `fault_cause` (R37), and the table's canonical form. -/
def Obligations.InvariantKeptByEveryStep : Prop :=
  ∀ s t : State, MachineInv s → step s = .next t → MachineInv t

/-- No step from a state of the invariant stops, and no command that is legal in its phase faults
(60_exceptions.md R160). -/
def Obligations.LegalCommandsNeverFail : Prop :=
  ∀ s : State, MachineInv s →
    (∃ t, step s = .next t) ∧
    ∀ i, cmdReady s.toCoreState = true → s.phase ∈ legalPhases i →
      ∃ t, exec i s = .next t ∧ t.phase ≠ .fault ∧ t.faultCause = s.faultCause

/-- Every emitted code is below `next_code` as it was before the step, fits the code port, and expands to the same string
then and ever after in the run (44_run_contract.md R147). -/
def Obligations.EmittedCodesArePopulated : Prop :=
  ∀ (i : Instr) (s t : State) (v : Code Config.codeWidth), MachineInv s → exec i s = .next t → t.out = s.out ++ [v] →
    v.toNat < s.nextCode.toNat ∧ v.toNat < Config.tableSize Config.codeWidth ∧
    ∃ x, expand s.toCoreState v.toNat = some x ∧ expand t.toCoreState v.toNat = some x ∧
      ∀ (n : Nat) (u : State), noReset n t → (∀ word ∈ acceptedWords n t, decode word ≠ .start) →
        steps n t = .next u → expand u.toCoreState v.toNat = some x

/-- Once the table is full, `next_code` and the table stay as they are until the next START or RESET
(44_run_contract.md R140). -/
def Obligations.SaturationIsPermanent : Prop :=
  ∀ (n : Nat) (s t : State), full s.toCoreState = true → noReset n s →
    (∀ v ∈ acceptedWords n s, decode v ≠ .start) → steps n s = .next t →
    full t.toCoreState = true ∧ t.nextCode = s.nextCode ∧ ∀ a, memRead t.toCoreState a = memRead s.toCoreState a

/-- Across the steps of a run `next_code` never decreases and a populated entry keeps its value
(44_run_contract.md R150). -/
def Obligations.TableGrowsMonotonically : Prop :=
  ∀ (n : Nat) (s t : State), noReset n s → (∀ v ∈ acceptedWords n s, decode v ≠ .start) → steps n s = .next t →
    s.nextCode.toNat ≤ t.nextCode.toNat ∧
    ∀ a, a < s.nextCode.toNat → memRead t.toCoreState a = memRead s.toCoreState a

/-- Distinct populated codes expand to distinct strings, and every non-empty proper initial part of an expansion is the
expansion of a smaller code (44_run_contract.md R152). -/
def Obligations.ExpansionsDistinctAndClosed : Prop :=
  ∀ (w : Nat) (_ : 8 ≤ w) (s : CoreState w), inRun s → RunInv s →
    (∀ a, a < s.nextCode.toNat → ∃ x, expand s a = some x ∧ x ≠ []) ∧
    (∀ a b, a < s.nextCode.toNat → b < s.nextCode.toNat → expand s a = expand s b → a = b) ∧
    (∀ a x y, a < s.nextCode.toNat → x ≠ [] → y ≠ [] → expand s a = some (x ++ y) → ∃ b, b < a ∧ expand s b = some x)

/-- At a miss on `c`, no string of the table extends the expansion of the prefix by `c`: the match was the longest
(40_table_and_search.md R102). -/
def Obligations.MatchIsLongestAtAMiss : Prop :=
  ∀ (w : Nat) (_ : 8 ≤ w) (s : CoreState w) (p : Code w) (c : Byte), s.phase = .run → RunInv s →
    s.currentPrefixCode = some p → search s p c = none →
    ∃ x, expand s p.toNat = some x ∧
      ∀ a y, a < s.nextCode.toNat → expand s a ≠ some (x ++ c :: y)

/-! ### Whole runs -/

/-- The machine computes `compress`: from any state that can begin a run, the commands of `COMPRESS bs` end in DONE with
`out` equal to the contract's function (44_run_contract.md R135). -/
def Obligations.RunComputesCompress : Prop :=
  ∀ (w : Nat) (_ : 8 ≤ w) (bs : List Byte) (s : CoreState w), canStart s →
    ∃ t, runCommands (compressCommands bs) s = .next t ∧ t.phase = .done ∧ t.faultCause = s.faultCause ∧
      t.out.map BitVec.toNat = compress w bs

/-- At the ports: presented one by one and each code accepted, the commands of `COMPRESS bs` end in a run that is over,
with every code of `compress bs` transferred in order (70_reset_and_hazards.md R193, R195). The number of moments is the
model's (log entries 4 and 13), no rule's. -/
def Obligations.RunAtThePortsComputesCompress : Prop :=
  ∀ (bs : List Byte) (rest : List PortInputs) (s : State), canStart s.toCoreState →
    s.inputs = (compressCommands bs).flatMap commandMoments ++ rest →
    ∃ t, Sys2Proof.core.run (2 * (bs.length + 2)) s = .next t ∧ runOver t = true ∧ t.inputs = rest ∧
      (transferredCodes (2 * (bs.length + 2)) s).map BitVec.toNat = compress Config.codeWidth bs ∧
      t.out.map BitVec.toNat = compress Config.codeWidth bs

/-- Whatever the moments of any number of steps without RESET, what they leave in the core is what the accepted commands
leave, executed one after another (20_memory.md R61). -/
def Obligations.StepsAreTheAcceptedCommands : Prop :=
  ∀ (n : Nat) (s t : State), noReset n s → steps n s = .next t →
    runCommands ((acceptedWords n s).map decode) (settled s) = .next (settled t)

/-- Identical input gives identical output: from any two states that can begin a run, whatever is left in their tables,
and however the commands and the acceptance of codes are spread over the moments (44_run_contract.md R141, which speaks of
the output). That `next_code` and the populated entries agree too is derived from the rules of the commands; that the reads
agree from `next_code` on is the model's choice, which holds those entries as absent (10_state.md R29 leaves them
unspecified; log entry 5, DESIGN CHOICE). -/
def Obligations.OutputDependsOnInputOnly : Prop :=
  ∀ (bs : List Byte) (n₁ n₂ : Nat) (s₁ s₂ t₁ t₂ : State), canStart s₁.toCoreState → canStart s₂.toCoreState →
    noReset n₁ s₁ → noReset n₂ s₂ →
    (acceptedWords n₁ s₁).map decode = compressCommands bs → (acceptedWords n₂ s₂).map decode = compressCommands bs →
    steps n₁ s₁ = .next t₁ → steps n₂ s₂ = .next t₂ →
    t₁.out = t₂.out ∧ t₁.nextCode = t₂.nextCode ∧
    (∀ a, memRead t₁.toCoreState a = memRead t₂.toCoreState a) ∧
    (t₁.pending = none → t₂.pending = none → transferredCodes n₁ s₁ = transferredCodes n₂ s₂)

/-- Nothing of earlier runs survives into a new one: two runs over the same bytes give the same output and the same table,
whatever commands ran between them (41_start.md R111, which states it of the output). That `next_code` and the populated
entries agree is derived; that the reads agree from `next_code` on is the model's choice, which holds those entries as
absent (10_state.md R29 leaves there what earlier runs left; log entry 5, DESIGN CHOICE). -/
def Obligations.RepeatedRunsAgree : Prop :=
  ∀ (w : Nat) (_ : 8 ≤ w) (bs : List Byte) (between : List Instr) (s t₁ t₂ : CoreState w), canStart s →
    runCommands (compressCommands bs) s = .next t₁ → runCommands between t₁ = .next t₂ → t₂.phase = .done →
    ∃ t₃, runCommands (compressCommands bs) t₂ = .next t₃ ∧ t₃.out = t₁.out ∧ t₃.nextCode = t₁.nextCode ∧
      ∀ a, memRead t₃ a = memRead t₁ a

/-- The consumed-input invariant: while a run is open the emitted codes and the prefix expand to the bytes accepted so far,
and at its end the emitted codes expand to the input (44_run_contract.md R149). -/
def Obligations.OutputExpandsToTheInput : Prop :=
  ∀ (w : Nat) (_ : 8 ≤ w) (bs : List Byte) (s : CoreState w), canStart s →
    (bs ≠ [] → ∃ t p, runCommands (openRun bs) s = .next t ∧ t.phase = .run ∧ t.currentPrefixCode = some p ∧
      expandAll t (t.out ++ [p]) = some bs) ∧
    ∃ t, runCommands (compressCommands bs) s = .next t ∧ t.phase = .done ∧ expandAll t t.out = some bs

/-- `compress([]) == []` and `compress([b]) == [b]`, on the core (44_run_contract.md R136, R137). -/
def Obligations.EmptyAndSingleByteInputs : Prop :=
  ∀ (w : Nat) (_ : 8 ≤ w) (s : CoreState w), canStart s →
    (∃ t, runCommands (compressCommands []) s = .next t ∧ t.phase = .done ∧ t.out = []) ∧
    ∀ b, ∃ t, runCommands (compressCommands [b]) s = .next t ∧ t.phase = .done ∧ t.out.map BitVec.toNat = [b.toNat]

/-- When no BYTE of the run is a hit, the output is the input's literal codes; and no BYTE is a hit when the adjacent pairs
are pairwise distinct, or at code width 8 (44_run_contract.md R138). -/
def Obligations.NoRepeatsLaw : Prop :=
  ∀ (w : Nat) (_ : 8 ≤ w) (b : Byte) (rest : List Byte) (s : CoreState w), canStart s →
    ∃ t₁ t, runCommands (openRun [b]) s = .next t₁ ∧ runCommands (compressCommands (b :: rest)) s = .next t ∧
      (countMisses rest t₁ = rest.length → t.out = (b :: rest).map (literalCode w)) ∧
      (((b :: rest).zip rest).Nodup ∨ w = 8 → countMisses rest t₁ = rest.length)

/-- The learning law and its five-byte form, at every width with room for three entries
(44_run_contract.md R139, 90_conflicts.md C1). -/
def Obligations.LearningLaw : Prop :=
  ∀ (w : Nat) (_ : 9 ≤ w) (A B : Byte) (s : CoreState w), A ≠ B → canStart s →
    (∃ t, runCommands (compressCommands [A, B, A, B]) s = .next t ∧
      t.out.map BitVec.toNat = [A.toNat, B.toNat, 256] ∧ t.nextCode.toNat = 258 ∧
      memRead t 256 = some (.pair ⟨literalCode w A, B⟩) ∧ memRead t 257 = some (.pair ⟨literalCode w B, A⟩)) ∧
    ∃ t, runCommands (compressCommands [A, B, A, B, A]) s = .next t ∧
      t.out.map BitVec.toNat = [A.toNat, B.toNat, 256, A.toNat] ∧ t.nextCode.toNat = 259 ∧
      memRead t 258 = some (.pair ⟨BitVec.ofNat w 256, A⟩)

/-- The counts of a run: one code for each miss and one for the flush, and one entry for each miss while there was room
(44_run_contract.md R148). -/
def Obligations.RunCounts : Prop :=
  ∀ (w : Nat) (_ : 8 ≤ w) (s : CoreState w), canStart s →
    (∃ t, runCommands (compressCommands []) s = .next t ∧ t.out = []) ∧
    ∀ (b : Byte) (rest : List Byte),
      ∃ t₁ t, runCommands (openRun [b]) s = .next t₁ ∧ runCommands (compressCommands (b :: rest)) s = .next t ∧
        countMisses rest t₁ ≤ rest.length ∧
        t.out.length = countMisses rest t₁ + 1 ∧
        1 ≤ t.out.length ∧ t.out.length ≤ rest.length + 1 ∧
        t.nextCode.toNat = 256 + min (countMisses rest t₁) (Config.tableSize w - 256)

/-- Code width 8: the search always misses, nothing is learnt, and the output is the input's literal codes
(44_run_contract.md R153). -/
def Obligations.WidthEightIsIdentity : Prop :=
  (∀ (s : CoreState 8) (p : Code 8) (c : Byte), s.nextCode.toNat ≤ 256 → search s p c = none) ∧
  ∀ (bs : List Byte) (s : CoreState 8), canStart s →
    ∃ t, runCommands (compressCommands bs) s = .next t ∧ t.nextCode.toNat = 256 ∧ full t = true ∧
      t.out = bs.map (literalCode 8) ∧ compress 8 bs = bs.map BitVec.toNat

/-- `COMPRESS` is START, the BYTEs and EOS (30_encoding.md R84), at the ports. -/
def Obligations.CompressLineExpands : Prop :=
  ∀ vs : List Nat, Line.program [.compress vs] = Line.program ([.start] ++ vs.map .byte ++ [.eos])
end

