-- ==== Sys2Proof/Laws/Memory.lean ====
section
/-! SUPPORT. The laws of the table RAM: read after write, and the canonical form. -/

namespace Sys2Proof.Machine

variable {w : Nat}

theorem read_write_same (m : Memory w) (a : Nat) (e : PairEntry w) : Memory.read (Memory.write m a e) a = some e := by
  induction m with
  | nil => simp [Memory.write, Memory.read]
  | cons x rest ih =>
    obtain ⟨k, y⟩ := x
    rcases Nat.lt_trichotomy a k with h | rfl | h
    · simp [Memory.write, Memory.read, h]
    · simp [Memory.write, Memory.read]
    · simp [Memory.write, Memory.read, ih, show ¬a < k by omega, show ¬a = k by omega, show ¬k = a by omega]

theorem read_write_other (m : Memory w) {a b : Nat} (e : PairEntry w) (h : b ≠ a) :
    Memory.read (Memory.write m a e) b = Memory.read m b := by
  induction m with
  | nil => simp [Memory.write, Memory.read, h.symm]
  | cons x rest ih =>
    obtain ⟨k, y⟩ := x
    rcases Nat.lt_trichotomy a k with hk | rfl | hk
    · simp [Memory.write, Memory.read, hk, h.symm]
    · simp [Memory.write, Memory.read, h.symm]
    · simp [Memory.write, Memory.read, ih, show ¬a < k by omega, show ¬a = k by omega]

/-- An address that a write lists was listed before, or is the one written. -/
theorem mem_write {m : Memory w} {a : Nat} {e : PairEntry w} {x : Nat × PairEntry w} (h : x ∈ Memory.write m a e) :
    x = (a, e) ∨ x ∈ m := by
  induction m with
  | nil => simpa [Memory.write] using h
  | cons y rest ih =>
    obtain ⟨k, z⟩ := y
    simp only [Memory.write] at h
    split at h
    · simpa using h
    · split at h
      · simp only [List.mem_cons] at h ⊢
        tauto
      · simp only [List.mem_cons] at h ⊢
        rcases h with h | h
        · exact .inr (.inl h)
        · exact (ih h).imp id .inr

/-- The only write the core performs, at a pair address, keeps the canonical form. -/
theorem wf_write {m : Memory w} {a : Nat} (e : PairEntry w) (h : Memory.wf m) (low : Config.alphabetSize ≤ a)
    (high : a < Config.tableSize w) : Memory.wf (Memory.write m a e) := by
  refine ⟨?_, fun x hx => ?_⟩
  · have rising := h.1
    clear h
    induction m with
    | nil => simp [Memory.write]
    | cons y rest ih =>
      obtain ⟨k, z⟩ := y
      obtain ⟨first, others⟩ := List.pairwise_cons.mp rising
      simp only [Memory.write]
      split
      · next hk =>
        refine List.pairwise_cons.mpr ⟨fun x hx => ?_, rising⟩
        rcases List.mem_cons.mp hx with rfl | hx
        · exact hk
        · exact Nat.lt_trans hk (first x hx)
      · split
        · next hk =>
          subst hk
          exact List.pairwise_cons.mpr ⟨first, others⟩
        · next h1 h2 =>
          refine List.pairwise_cons.mpr ⟨fun x hx => ?_, ih others⟩
          rcases mem_write hx with rfl | hx
          · show k < a
            omega
          · exact first x hx
  · rcases mem_write hx with rfl | hx
    · exact ⟨low, high⟩
    · exact h.2 x hx

theorem wf_nil : Memory.wf ([] : Memory w) := by simp [Memory.wf]

/-- A read of a canonical RAM finds an entry exactly where one is listed. -/
theorem read_eq_some_iff {m : Memory w} (h : m.Pairwise fun x y => x.1 < y.1) (a : Nat) (e : PairEntry w) :
    Memory.read m a = some e ↔ (a, e) ∈ m := by
  induction m with
  | nil => simp [Memory.read]
  | cons y rest ih =>
    obtain ⟨k, z⟩ := y
    obtain ⟨first, others⟩ := List.pairwise_cons.mp h
    by_cases hk : k = a
    · subst hk
      have absent : (k, e) ∉ rest := fun hm => Nat.lt_irrefl k (first (k, e) hm)
      simp [Memory.read, absent, eq_comm]
    · simp [Memory.read, hk, ih others, show ¬a = k from fun h' => hk h'.symm]

end Sys2Proof.Machine
end

