-- ==== Sys2Proof/Laws/State.lean ====
section
/-! SUPPORT. What each named update of the state does to each field, one lemma per field, so that no proof unfolds an
update. -/

namespace Sys2Proof.Machine

variable {w : Nat} (s : CoreState w)

/-! ### memWrite -/

@[simp] theorem memWrite_phase (a : Nat) (e : PairEntry w) : (memWrite a e s).phase = s.phase := rfl
@[simp] theorem memWrite_nextCode (a : Nat) (e : PairEntry w) : (memWrite a e s).nextCode = s.nextCode := rfl
@[simp] theorem memWrite_currentPrefixCode (a : Nat) (e : PairEntry w) :
    (memWrite a e s).currentPrefixCode = s.currentPrefixCode := rfl
@[simp] theorem memWrite_literalsPresent (a : Nat) (e : PairEntry w) :
    (memWrite a e s).literalsPresent = s.literalsPresent := rfl
@[simp] theorem memWrite_table (a : Nat) (e : PairEntry w) : (memWrite a e s).table = Memory.write s.table a e := rfl
@[simp] theorem memWrite_faultCause (a : Nat) (e : PairEntry w) : (memWrite a e s).faultCause = s.faultCause := rfl
@[simp] theorem memWrite_out (a : Nat) (e : PairEntry w) : (memWrite a e s).out = s.out := rfl
@[simp] theorem memWrite_pending (a : Nat) (e : PairEntry w) : (memWrite a e s).pending = s.pending := rfl

/-! ### emit -/

@[simp] theorem emit_phase (v : Code w) : (emit v s).phase = s.phase := rfl
@[simp] theorem emit_nextCode (v : Code w) : (emit v s).nextCode = s.nextCode := rfl
@[simp] theorem emit_currentPrefixCode (v : Code w) : (emit v s).currentPrefixCode = s.currentPrefixCode := rfl
@[simp] theorem emit_literalsPresent (v : Code w) : (emit v s).literalsPresent = s.literalsPresent := rfl
@[simp] theorem emit_table (v : Code w) : (emit v s).table = s.table := rfl
@[simp] theorem emit_faultCause (v : Code w) : (emit v s).faultCause = s.faultCause := rfl
@[simp] theorem emit_out (v : Code w) : (emit v s).out = s.out ++ [v] := rfl
@[simp] theorem emit_pending (v : Code w) : (emit v s).pending = some v := rfl

/-! ### transfer -/

@[simp] theorem transfer_phase : (transfer s).phase = s.phase := rfl
@[simp] theorem transfer_nextCode : (transfer s).nextCode = s.nextCode := rfl
@[simp] theorem transfer_currentPrefixCode : (transfer s).currentPrefixCode = s.currentPrefixCode := rfl
@[simp] theorem transfer_literalsPresent : (transfer s).literalsPresent = s.literalsPresent := rfl
@[simp] theorem transfer_table : (transfer s).table = s.table := rfl
@[simp] theorem transfer_faultCause : (transfer s).faultCause = s.faultCause := rfl
@[simp] theorem transfer_out : (transfer s).out = s.out := rfl
@[simp] theorem transfer_pending : (transfer s).pending = none := rfl

/-! ### setPrefix -/

@[simp] theorem setPrefix_phase (v : Code w) : (setPrefix v s).phase = .run := rfl
@[simp] theorem setPrefix_nextCode (v : Code w) : (setPrefix v s).nextCode = s.nextCode := rfl
@[simp] theorem setPrefix_currentPrefixCode (v : Code w) : (setPrefix v s).currentPrefixCode = some v := rfl
@[simp] theorem setPrefix_literalsPresent (v : Code w) : (setPrefix v s).literalsPresent = s.literalsPresent := rfl
@[simp] theorem setPrefix_table (v : Code w) : (setPrefix v s).table = s.table := rfl
@[simp] theorem setPrefix_faultCause (v : Code w) : (setPrefix v s).faultCause = s.faultCause := rfl
@[simp] theorem setPrefix_out (v : Code w) : (setPrefix v s).out = s.out := rfl
@[simp] theorem setPrefix_pending (v : Code w) : (setPrefix v s).pending = s.pending := rfl

/-! ### eosEmpty and eosFlush -/

@[simp] theorem eosEmpty_phase : (eosEmpty s).phase = .done := rfl
@[simp] theorem eosEmpty_nextCode : (eosEmpty s).nextCode = s.nextCode := rfl
@[simp] theorem eosEmpty_currentPrefixCode : (eosEmpty s).currentPrefixCode = s.currentPrefixCode := rfl
@[simp] theorem eosEmpty_literalsPresent : (eosEmpty s).literalsPresent = s.literalsPresent := rfl
@[simp] theorem eosEmpty_table : (eosEmpty s).table = s.table := rfl
@[simp] theorem eosEmpty_faultCause : (eosEmpty s).faultCause = s.faultCause := rfl
@[simp] theorem eosEmpty_out : (eosEmpty s).out = s.out := rfl
@[simp] theorem eosEmpty_pending : (eosEmpty s).pending = s.pending := rfl
@[simp] theorem eosFlush_phase (p : Code w) : (eosFlush s p).phase = .done := rfl
@[simp] theorem eosFlush_nextCode (p : Code w) : (eosFlush s p).nextCode = s.nextCode := rfl
@[simp] theorem eosFlush_currentPrefixCode (p : Code w) : (eosFlush s p).currentPrefixCode = none := rfl
@[simp] theorem eosFlush_literalsPresent (p : Code w) : (eosFlush s p).literalsPresent = s.literalsPresent := rfl
@[simp] theorem eosFlush_table (p : Code w) : (eosFlush s p).table = s.table := rfl
@[simp] theorem eosFlush_faultCause (p : Code w) : (eosFlush s p).faultCause = s.faultCause := rfl
@[simp] theorem eosFlush_out (p : Code w) : (eosFlush s p).out = s.out ++ [p] := rfl
@[simp] theorem eosFlush_pending (p : Code w) : (eosFlush s p).pending = some p := rfl

/-! ### startRun -/

@[simp] theorem startRun_phase : (startRun s).phase = .ready := rfl
@[simp] theorem startRun_nextCode : (startRun s).nextCode = BitVec.ofNat (w + 1) Config.alphabetSize := rfl
@[simp] theorem startRun_currentPrefixCode : (startRun s).currentPrefixCode = s.currentPrefixCode := rfl
@[simp] theorem startRun_literalsPresent : (startRun s).literalsPresent = true := rfl
@[simp] theorem startRun_table : (startRun s).table = s.table := rfl
@[simp] theorem startRun_faultCause : (startRun s).faultCause = s.faultCause := rfl
@[simp] theorem startRun_out : (startRun s).out = [] := rfl
@[simp] theorem startRun_pending : (startRun s).pending = s.pending := rfl

/-! ### raiseFault -/

@[simp] theorem raiseFault_phase (c : FaultCause) : (raiseFault c s).phase = .fault := rfl
@[simp] theorem raiseFault_nextCode (c : FaultCause) : (raiseFault c s).nextCode = s.nextCode := rfl
@[simp] theorem raiseFault_currentPrefixCode (c : FaultCause) : (raiseFault c s).currentPrefixCode = none := rfl
@[simp] theorem raiseFault_literalsPresent (c : FaultCause) : (raiseFault c s).literalsPresent = s.literalsPresent := rfl
@[simp] theorem raiseFault_table (c : FaultCause) : (raiseFault c s).table = s.table := rfl
@[simp] theorem raiseFault_faultCause (c : FaultCause) : (raiseFault c s).faultCause = c := rfl
@[simp] theorem raiseFault_out (c : FaultCause) : (raiseFault c s).out = s.out := rfl
@[simp] theorem raiseFault_pending (c : FaultCause) : (raiseFault c s).pending = s.pending := rfl

/-! ### resetCore -/

variable (f : NextCode w)

@[simp] theorem resetCore_phase : (resetCore f).phase = .idle := rfl
@[simp] theorem resetCore_nextCode : (resetCore f).nextCode = f := rfl
@[simp] theorem resetCore_currentPrefixCode : (resetCore f).currentPrefixCode = none := rfl
@[simp] theorem resetCore_literalsPresent : (resetCore f).literalsPresent = false := rfl
@[simp] theorem resetCore_table : (resetCore f).table = [] := rfl
@[simp] theorem resetCore_faultCause : (resetCore f).faultCause = .noFault := rfl
@[simp] theorem resetCore_out : (resetCore f).out = [] := rfl
@[simp] theorem resetCore_pending : (resetCore f).pending = none := rfl

/-! ### The machine's updates -/

variable (m : State) (rest : List PortInputs)

@[simp] theorem advance_core : (m.advance rest).toCoreState = m.toCoreState := rfl
@[simp] theorem advance_inputs : (m.advance rest).inputs = rest := rfl
@[simp] theorem advance_freeIndex : (m.advance rest).freeIndex = m.freeIndex + 1 := rfl
@[simp] theorem transferEvent_core : m.transferEvent.toCoreState = transfer m.toCoreState := rfl
@[simp] theorem transferEvent_inputs : m.transferEvent.inputs = m.inputs := rfl
@[simp] theorem transferEvent_freeIndex : m.transferEvent.freeIndex = m.freeIndex := rfl
@[simp] theorem resetEvent_core :
    m.resetEvent.toCoreState = resetCore (Config.freeNextCode _ m.freeIndex) := rfl
@[simp] theorem resetEvent_inputs : m.resetEvent.inputs = m.inputs := rfl
@[simp] theorem resetEvent_freeIndex : m.resetEvent.freeIndex = m.freeIndex := rfl
@[simp] theorem withFetchWord_inputs (n k : Nat) :
    (m.withFetchWord n k).inputs = presenting (BitVec.ofNat 10 k) :: m.inputs := rfl
@[simp] theorem withFetchWord_core (n k : Nat) : (m.withFetchWord n k).toCoreState = transfer m.toCoreState := rfl

end Sys2Proof.Machine
end

