-- ==== Sys2Proof/Laws/Ops.lean ====
section
/-! SUPPORT. For each shared operation, what it can do, said once. -/

namespace Sys2Proof.Machine

variable {w : Nat}

/-! ### Table reads -/

theorem memRead_literal (s : CoreState w) {a : Nat} (h : a < 256) :
    memRead s a = if s.literalsPresent then some (.literal (BitVec.ofNat 8 a)) else none := by
  simp [memRead, Config.alphabetSize, h]

theorem memRead_pair (s : CoreState w) {a : Nat} (low : 256 ≤ a) (high : a < s.nextCode.toNat) :
    memRead s a = (Memory.read s.table a).map .pair := by
  simp [memRead, Config.alphabetSize, Nat.not_lt.mpr low, high]

theorem memRead_unpopulated (s : CoreState w) {a : Nat} (low : 256 ≤ a) (high : s.nextCode.toNat ≤ a) :
    memRead s a = none := by
  simp [memRead, Config.alphabetSize, Nat.not_lt.mpr low, Nat.not_lt.mpr high]

/-- A read looks at the two regions of the table and at `next_code`, and at nothing else. -/
theorem memRead_congr {s t : CoreState w} (hl : s.literalsPresent = t.literalsPresent) (ht : s.table = t.table)
    (hn : s.nextCode = t.nextCode) : memRead s = memRead t := by
  funext a
  simp only [memRead, hl, ht, hn]

/-! ### The scan -/

theorem scan_some {s : CoreState w} {p : Code w} {c : Byte} {n i j : Nat} (h : scan s p c n i = some j) :
    i ≤ j ∧ j < i + n ∧ memRead s j = some (.pair ⟨p, c⟩) ∧
      ∀ k, i ≤ k → k < j → memRead s k ≠ some (.pair ⟨p, c⟩) := by
  induction n generalizing i with
  | zero => simp [scan] at h
  | succ n ih =>
    simp only [scan] at h
    split at h
    · next hit =>
      obtain rfl : i = j := by simpa using h
      exact ⟨le_rfl, by omega, hit, fun k h1 h2 => absurd h1 (by omega)⟩
    · next missed =>
      obtain ⟨h1, h2, h3, h4⟩ := ih h
      refine ⟨by omega, by omega, h3, fun k hk1 hk2 => ?_⟩
      rcases Nat.eq_or_lt_of_le hk1 with rfl | hlt
      · exact missed
      · exact h4 k hlt hk2

theorem scan_none {s : CoreState w} {p : Code w} {c : Byte} {n i : Nat} (h : scan s p c n i = none) :
    ∀ k, i ≤ k → k < i + n → memRead s k ≠ some (.pair ⟨p, c⟩) := by
  induction n generalizing i with
  | zero => intro k h1 h2; omega
  | succ n ih =>
    simp only [scan] at h
    split at h
    · simp at h
    · next missed =>
      intro k hk1 hk2
      rcases Nat.eq_or_lt_of_le hk1 with rfl | hlt
      · exact missed
      · exact ih h k hlt (by omega)

/-- The scan looks at the entries it reads and at nothing else. -/
theorem scan_congr {s t : CoreState w} (h : memRead s = memRead t) (p : Code w) (c : Byte) (n i : Nat) :
    scan s p c n i = scan t p c n i := by
  induction n generalizing i with
  | zero => rfl
  | succ n ih => simp [scan, h, ih]

/-! ### Insertion -/

theorem insertAddress_of_lt {s : CoreState w} (h : s.nextCode.toNat < Config.tableSize w) :
    insertAddress s = some s.nextCode.toNat := by
  simp only [insertAddress, h, if_true, BitVec.toNat_setWidth, Option.some.injEq]
  exact Nat.mod_eq_of_lt h

theorem insertAddress_saturated {s : CoreState w} (h : Config.tableSize w ≤ s.nextCode.toNat) :
    insertAddress s = none := by
  simp [insertAddress, Nat.not_lt.mpr h]

theorem insert_of_lt {s : CoreState w} (h : s.nextCode.toNat < Config.tableSize w) (p : Code w) (c : Byte) :
    insert p c s = { memWrite s.nextCode.toNat ⟨p, c⟩ s with nextCode := s.nextCode + 1 } := by
  simp [insert, insertAddress_of_lt h]

theorem insert_saturated {s : CoreState w} (h : Config.tableSize w ≤ s.nextCode.toNat) (p : Code w) (c : Byte) :
    insert p c s = s := by
  simp [insert, insertAddress_saturated h]

/-- The guarded increment never wraps (40_table_and_search.md R99). -/
theorem nextCode_succ {n : NextCode w} (h : n.toNat < Config.tableSize w) : (n + 1).toNat = n.toNat + 1 := by
  have : 2 ^ (w + 1) = 2 * 2 ^ w := by rw [Nat.pow_succ]; omega
  have hp : 0 < 2 ^ w := Nat.two_pow_pos w
  simp only [Config.tableSize] at h
  have one : (1 : NextCode w).toNat = 1 := by
    rw [show (1 : NextCode w) = BitVec.ofNat (w + 1) 1 from rfl, BitVec.toNat_ofNat]
    exact Nat.mod_eq_of_lt (by omega)
  rw [BitVec.toNat_add, one, Nat.mod_eq_of_lt (by omega)]

variable (s : CoreState w) (p : Code w) (c : Byte)

@[simp] theorem insert_phase : (insert p c s).phase = s.phase := by unfold insert; split <;> rfl
@[simp] theorem insert_currentPrefixCode : (insert p c s).currentPrefixCode = s.currentPrefixCode := by
  unfold insert; split <;> rfl
@[simp] theorem insert_literalsPresent : (insert p c s).literalsPresent = s.literalsPresent := by
  unfold insert; split <;> rfl
@[simp] theorem insert_faultCause : (insert p c s).faultCause = s.faultCause := by unfold insert; split <;> rfl
@[simp] theorem insert_out : (insert p c s).out = s.out := by unfold insert; split <;> rfl
@[simp] theorem insert_pending : (insert p c s).pending = s.pending := by unfold insert; split <;> rfl

/-! ### Acceptance -/

variable {s}

theorem cmdReady_iff : cmdReady s = true ↔ s.phase ≠ .fault ∧ s.pending = none := by
  simp [cmdReady, isFault, Option.isNone_iff_eq_none]

theorem codeValid_iff : codeValid s = true ↔ s.phase ≠ .fault ∧ ∃ v, s.pending = some v := by
  simp [codeValid, isFault, Option.isSome_iff_exists]

theorem accepted_of_ready {body : CoreState w → Host.Outcome (CoreState w) Fault Refusal} (h : cmdReady s = true) :
    accepted body s = body s := by simp [accepted, h]

theorem accepted_of_not_ready {body : CoreState w → Host.Outcome (CoreState w) Fault Refusal} (h : cmdReady s = false) :
    accepted body s = .next s := by simp [accepted, h]

theorem inPhases_legal {ps : List Phase} {body : CoreState w → Host.Outcome (CoreState w) Fault Refusal}
    (h : s.phase ∈ ps) : inPhases ps body s = body s := by simp [inPhases, h]

theorem inPhases_illegal {ps : List Phase} {body : CoreState w → Host.Outcome (CoreState w) Fault Refusal}
    (h : s.phase ∉ ps) : inPhases ps body s = .next (raiseFault .illegalPhase s) := by simp [inPhases, h]

/-- An outcome of the machine on its core: the environment's part stays. -/
theorem onCore_next {f : CoreState Config.codeWidth → Host.Outcome (CoreState Config.codeWidth) Fault Refusal}
    {m t : State} (h : onCore f m = .next t) :
    f m.toCoreState = .next t.toCoreState ∧ t.inputs = m.inputs ∧ t.freeIndex = m.freeIndex := by
  unfold onCore at h
  split at h
  · next c hc => cases h; exact ⟨hc, rfl, rfl⟩
  · cases h
  · cases h

theorem onCore_of_next {f : CoreState Config.codeWidth → Host.Outcome (CoreState Config.codeWidth) Fault Refusal}
    {m : State} {c : CoreState Config.codeWidth} (h : f m.toCoreState = .next c) :
    onCore f m = .next { m with toCoreState := c } := by simp [onCore, h]

end Sys2Proof.Machine
end

