-- ==== Sys2Proof/Laws/Commands.lean ====
section
/-! SUPPORT. What each command can do, said once: its inversion lemma. The machine's `exec` and `step` are reduced to
these. -/

namespace Sys2Proof.Machine

variable {w : Nat} {s t : CoreState w}

/-- What BYTE can do: not accepted, seed, hit, miss, or a fault of phase. -/
theorem byteCommand_cases {b : Byte} (h : byteCommand b s = .next t) :
    (cmdReady s = false ∧ t = s) ∨
    (cmdReady s = true ∧ s.phase = .ready ∧ t = byteSeed b s) ∨
    (cmdReady s = true ∧ s.phase = .run ∧ ∃ p, s.currentPrefixCode = some p ∧
      ((∃ idx, search s p b = some idx ∧ t = setPrefix idx s) ∨ (search s p b = none ∧ t = byteMiss p b s))) ∨
    (cmdReady s = true ∧ (s.phase = .idle ∨ s.phase = .done) ∧ t = raiseFault .illegalPhase s) := by
  cases hr : cmdReady s with
  | false => simp only [byteCommand, accepted_of_not_ready hr] at h; cases h; simp
  | true =>
    have hf := (cmdReady_iff.mp hr).1
    simp only [byteCommand, accepted_of_ready hr, inPhases] at h
    cases hp : s.phase with
    | fault => exact absurd hp hf
    | idle => simp [hp] at h; simp [h]
    | done => simp [hp] at h; simp [h]
    | ready => simp [hp] at h; simp [h]
    | run =>
      rw [if_pos (by simp [hp]), if_neg (by simp [hp])] at h
      cases hc : s.currentPrefixCode with
      | none => simp [withPrefix, hc] at h
      | some p =>
        simp only [withPrefix, hc, byteRun] at h
        refine .inr (.inr (.inl ⟨rfl, rfl, p, rfl, ?_⟩))
        cases hs : search s p b with
        | none => rw [hs] at h; cases h; exact .inr ⟨rfl, rfl⟩
        | some idx => rw [hs] at h; cases h; exact .inl ⟨idx, rfl, rfl⟩

/-- What EOS can do: not accepted, empty input, flush, or a fault of phase. -/
theorem eosCommand_cases (h : eosCommand s = .next t) :
    (cmdReady s = false ∧ t = s) ∨
    (cmdReady s = true ∧ s.phase = .ready ∧ t = eosEmpty s) ∨
    (cmdReady s = true ∧ s.phase = .run ∧ ∃ p, s.currentPrefixCode = some p ∧ t = eosFlush s p) ∨
    (cmdReady s = true ∧ (s.phase = .idle ∨ s.phase = .done) ∧ t = raiseFault .illegalPhase s) := by
  cases hr : cmdReady s with
  | false => simp only [eosCommand, accepted_of_not_ready hr] at h; cases h; simp
  | true =>
    have hf := (cmdReady_iff.mp hr).1
    simp only [eosCommand, accepted_of_ready hr, inPhases] at h
    cases hp : s.phase with
    | fault => exact absurd hp hf
    | idle => simp [hp] at h; simp [h]
    | done => simp [hp] at h; simp [h]
    | ready => simp [hp] at h; simp [h]
    | run =>
      simp only [hp, withPrefix] at h
      cases hc : s.currentPrefixCode with
      | none => simp [hc] at h
      | some p => simp [hc] at h; simp [h]

/-- What START can do: not accepted, begin a run, or a fault of phase. -/
theorem startCommand_cases (h : startCommand s = .next t) :
    (cmdReady s = false ∧ t = s) ∨
    (cmdReady s = true ∧ (s.phase = .idle ∨ s.phase = .done) ∧ t = startRun s) ∨
    (cmdReady s = true ∧ (s.phase = .ready ∨ s.phase = .run) ∧ t = raiseFault .illegalPhase s) := by
  cases hr : cmdReady s with
  | false => simp only [startCommand, accepted_of_not_ready hr] at h; cases h; simp
  | true =>
    have hf := (cmdReady_iff.mp hr).1
    simp only [startCommand, accepted_of_ready hr, inPhases] at h
    cases hp : s.phase with
    | fault => exact absurd hp hf
    | _ => simp [hp] at h; simp [h]

/-- What the reserved opcode can do: not accepted, or a fault of opcode. -/
theorem reservedCommand_cases (h : reservedCommand s = .next t) :
    (cmdReady s = false ∧ t = s) ∨ (cmdReady s = true ∧ t = raiseFault .illegalOpcode s) := by
  cases hr : cmdReady s with
  | false => simp only [reservedCommand, accepted_of_not_ready hr] at h; cases h; simp
  | true => simp only [reservedCommand, accepted_of_ready hr] at h; cases h; simp

/-! ### The commands where they apply -/

theorem byteCommand_ready (hr : cmdReady s = true) (hp : s.phase = .ready) (b : Byte) :
    byteCommand b s = .next (byteSeed b s) := by
  simp [byteCommand, accepted_of_ready hr, inPhases, hp]

theorem byteCommand_run (hr : cmdReady s = true) (hp : s.phase = .run) {p : Code w} (hc : s.currentPrefixCode = some p)
    (b : Byte) : byteCommand b s = .next (byteFound p b s (search s p b)) := by
  simp [byteCommand, accepted_of_ready hr, inPhases, hp, withPrefix, hc, byteRun]

theorem eosCommand_ready (hr : cmdReady s = true) (hp : s.phase = .ready) : eosCommand s = .next (eosEmpty s) := by
  simp [eosCommand, accepted_of_ready hr, inPhases, hp]

theorem eosCommand_run (hr : cmdReady s = true) (hp : s.phase = .run) {p : Code w}
    (hc : s.currentPrefixCode = some p) : eosCommand s = .next (eosFlush s p) := by
  simp [eosCommand, accepted_of_ready hr, inPhases, hp, withPrefix, hc]

theorem startCommand_legal (hr : cmdReady s = true) (hp : s.phase = .idle ∨ s.phase = .done) :
    startCommand s = .next (startRun s) := by
  simp [startCommand, accepted_of_ready hr, inPhases, hp]

theorem reservedCommand_of_ready (hr : cmdReady s = true) :
    reservedCommand s = .next (raiseFault .illegalOpcode s) := by
  simp [reservedCommand, accepted_of_ready hr]

theorem command_of_not_ready (hr : cmdReady s = false) (i : Instr) : command i s = .next s := by
  cases i <;> simp only [command, byteCommand, eosCommand, startCommand, reservedCommand, accepted_of_not_ready hr]

/-- The machine's command step is the core's. -/
theorem exec_eq_onCore (i : Instr) (m : State) : exec i m = onCore (command i) m := by cases i <;> rfl

/-- A command step of the core that goes on is one of the machine. -/
theorem exec_of_command {i : Instr} {m : State} {c : CoreState Config.codeWidth} (h : command i m.toCoreState = .next c) :
    exec i m = .next { m with toCoreState := c } := by
  rw [exec_eq_onCore]
  exact onCore_of_next h

/-- `steps` is the host's run of the machine. -/
theorem steps_eq_run (n : Nat) (m : State) :
    steps n m = Host.Core.run ⟨State, Fault, Refusal, step, State.reset⟩ n m := by
  induction n generalizing m with
  | zero => rfl
  | succ n ih =>
    simp only [steps, Host.Core.run]
    cases step m <;> simp [ih]

/-! ### What a step can do -/

theorem step_nil {m : State} (h : m.inputs = []) : step m = .next m := by simp [step, h]

theorem step_cons {m : State} {x : PortInputs} {rest : List PortInputs} (h : m.inputs = x :: rest) :
    step m = match portEvent x m with
      | .reset => .next (m.advance rest).resetEvent
      | .transfer => .next (m.advance rest).transferEvent
      | .command word => exec (decode word) (m.advance rest)
      | .wait => .next (m.advance rest) := by
  obtain ⟨core, inputs, index⟩ := m
  obtain rfl : inputs = x :: rest := h
  rfl

/-- What one step can do: nothing is left to do, RESET, a transfer, a presented command, or waiting. -/
theorem step_cases {m t : State} (h : step m = .next t) :
    (m.inputs = [] ∧ t = m) ∨
    ∃ x rest, m.inputs = x :: rest ∧
      ((x.rst = true ∧ t = (m.advance rest).resetEvent) ∨
       (x.rst = false ∧ codeValid m.toCoreState = true ∧ x.codeReady = true ∧ t = (m.advance rest).transferEvent) ∨
       (x.rst = false ∧ codeValid m.toCoreState = true ∧ x.codeReady = false ∧ t = m.advance rest) ∨
       (x.rst = false ∧ codeValid m.toCoreState = false ∧ x.cmdValid = true ∧
         exec (decode x.cmd) (m.advance rest) = .next t) ∨
       (x.rst = false ∧ codeValid m.toCoreState = false ∧ x.cmdValid = false ∧ t = m.advance rest)) := by
  cases hi : m.inputs with
  | nil => rw [step_nil hi] at h; cases h; exact .inl ⟨rfl, rfl⟩
  | cons x rest =>
    rw [step_cons hi] at h
    refine .inr ⟨x, rest, rfl, ?_⟩
    cases h1 : x.rst <;> cases h2 : codeValid m.toCoreState <;> cases h3 : x.codeReady <;> cases h4 : x.cmdValid <;>
      simp [portEvent, h1, h2, h3, h4] at h <;> simp [h]

end Sys2Proof.Machine
end

