-- ==== Sys2Proof/Laws/PerInstr.lean ====
section
/-! SUPPORT. Statements made instruction by instruction. -/

namespace Sys2Proof.Laws.RowOfEncoding

/-- The encoded word selects the instruction's own row of the opcode map and no other (30_encoding.md R73 to R76). -/
def Statement (i : Instr) : Prop :=
  (opcodeTable.filter fun r => r.selects (encode i)).map (fun r => r.mnemonic) = [mnemonicOf i]

theorem byte (b : Byte) : Statement (.byte b) := by
  revert b
  unfold Statement
  decide

theorem eos : Statement .eos := by unfold Statement; decide

theorem start : Statement .start := by unfold Statement; decide

theorem reserved : Statement .reserved := by unfold Statement; decide

end Sys2Proof.Laws.RowOfEncoding
end

