-- ==== Sys2Proof/Tests/Slice0.lean ====
section
/-! SUPPORT. Tests whose expected results are the spec's (95_test_vectors.md, by number), the smoke tests of the
well-formedness checks, and for each statement with hypotheses a state that meets them. -/

namespace Sys2Proof.Tests

open Sys2Proof.Machine Sys2Proof.Safety

/-! ### Well-formedness: one refused term for each check that a term can fail -/

theorem test_width_seven_refused : Config.admitted 7 = false ∧ Config.admitted 8 = true := by decide
theorem test_eleven_bit_word_refused : isCommandWord 1024 = false ∧ isCommandWord 1023 = true := by decide
theorem test_byte_value_256_refused : isByteValue 256 = false ∧ isByteValue 255 = true := by decide
theorem test_line_byte_256_refused : (Line.byte 256).wellFormed = false ∧ (Line.byte 255).wellFormed = true := by decide
theorem test_line_compress_256_refused : (Line.compress [0, 256]).wellFormed = false := by decide
theorem test_number_1024_rejected_by_name : decodeNumber 1024 = .error .widerThanCommandWord := by decide
theorem test_phase_encoding_five_refused : Phase.ofEncoding 0b101 = none := by decide

/-! ### Decoding: words written out from 30_encoding.md R73 to R76 (V32 to V39) -/

theorem test_decode_byte_a5 : decode 0b0010100101 = .byte 0xA5 := by decide
theorem test_decode_eos : decode 0b0100000000 = .eos ∧ decode 0b0101111110 = .eos := by decide
theorem test_decode_start : decode 0b1000000000 = .start ∧ decode 0b1011111111 = .start := by decide
theorem test_decode_reserved : decode 0b1100000000 = .reserved ∧ decode 0b1110101011 = .reserved := by decide
theorem test_table_word_byte : decodeTableWord 10 0x041 = some (.byte 0x41) := by decide
theorem test_encode_words :
    encode (.byte 0x41) = 0x041 ∧ encode .eos = 0x100 ∧ encode .start = 0x200 ∧ encode .reserved = 0x300 := by decide

/-! ### Small states -/

/-- A core in RUN whose table is that of V16: 256 is (65, 0x42) and 257 is (66, 0x41). -/
def runState (p : Code Config.codeWidth) (n : NextCode Config.codeWidth) (out : List (Code Config.codeWidth)) : State :=
  { State.reset with
    phase := .run, nextCode := n, currentPrefixCode := some p, literalsPresent := true,
    table := [(256, ⟨65, 0x42⟩), (257, ⟨66, 0x41⟩)], out := out }

/-- A core in READY right after START. -/
def readyState : State := { State.reset with phase := .ready, nextCode := 256, literalsPresent := true }

/-- A core in DONE after the one-byte run of V24. -/
def doneState : State := { readyState with phase := .done, out := [65] }

/-- A core in FAULT with cause 2. -/
def faultState : State := { State.reset with phase := .fault, faultCause := .illegalPhase }

/-- A core in RUN with the code 65 waiting on the code port. -/
def waitingState : State := { runState 66 257 [65] with pending := some 65, table := [(256, ⟨65, 0x42⟩)] }

/-- A saturated core in RUN. -/
def saturatedState (p : Code Config.codeWidth) : State := runState p 4096 []

/-- What one step leaves, seen through `f`. -/
def afterExec {α : Type} (i : Instr) (s : State) (f : State → α) : Option α := (nextState (exec i s)).map f

/-- What one step of the machine leaves, seen through `f`. -/
def afterStep {α : Type} (s : State) (f : State → α) : Option α := (nextState (step s)).map f

/-! ### One step of each command -/

/-- V19: a miss with a learnt prefix. -/
theorem test_byte_miss :
    afterExec (.byte 0x41) (runState 256 258 [65, 66])
      (fun t => (t.out, t.currentPrefixCode, t.nextCode, memRead t.toCoreState 258, t.pending)) =
    some ([65, 66, 256], some 65, 259, some (.pair ⟨256, 0x41⟩), some 256) := by decide

/-- V16: a hit. -/
theorem test_byte_hit :
    afterExec (.byte 0x42) (runState 65 258 []) (fun t => (t.out, t.currentPrefixCode, t.nextCode, t.pending)) =
    some ([], some 256, 258, none) := by decide

/-- V27: a learnt code is flushed and nothing is inserted. -/
theorem test_eos_flush :
    afterExec .eos (runState 257 258 [65, 66]) (fun t => (t.phase, t.out, t.currentPrefixCode, t.nextCode)) =
    some (.done, [65, 66, 257], none, 258) := by decide

/-- V29: a second EOS is a fault and emits nothing. -/
theorem test_eos_after_done :
    afterExec .eos doneState (fun t => (t.phase, t.faultCause.encode, t.out)) = some (.fault, 2, [65]) := by decide

/-- V9: START after reset. -/
theorem test_start_after_reset :
    afterExec .start State.reset
      (fun t => (t.phase, t.nextCode, t.currentPrefixCode, t.outputs.stFull, memRead t.toCoreState 255)) =
    some (.ready, 256, none, 0, some (.literal 0xFF)) := by decide

/-- V12: START in RUN. -/
theorem test_start_in_run :
    afterExec .start (runState 65 256 []) (fun t => (t.phase, t.faultCause.encode, t.out)) = some (.fault, 2, []) := by
  decide

/-- V41: the opcode is checked before the phase. -/
theorem test_reserved_in_idle :
    afterExec .reserved State.reset (fun t => (t.phase, t.faultCause.encode)) = some (.fault, 1) := by decide

/-- V40: in FAULT no command is accepted. -/
theorem test_byte_in_fault : afterExec (.byte 0x41) faultState id = some faultState := by decide

/-! ### The search (V8a, V8d, V8g, V8h), the last slot (V20), width 8 (V14, P6) -/

theorem test_search_hit : search (runState 65 258 []).toCoreState 65 0x42 = some 256 := by decide
theorem test_search_byte_alone_is_no_match : search (runState 65 258 []).toCoreState 66 0x42 = none := by decide
theorem test_search_stale_entry_not_found : search (runState 65 257 []).toCoreState 66 0x41 = none := by decide

theorem test_insert_into_the_last_slot :
    let t := insert 227 0x00 (runState 227 4095 []).toCoreState
    t.nextCode = 4096 ∧ Memory.read t.table 4095 = some ⟨227, 0x00⟩ ∧ full t = true := by decide

theorem test_width_eight_miss_learns_nothing :
    (nextState (command (.byte 0x42)
      ({ startRun (resetCore 0 : CoreState 8) with phase := .run, currentPrefixCode := some 65 }))).map
      (fun t => (t.out, t.nextCode, t.currentPrefixCode)) = some ([65], 256, some 66) := by decide

/-! ### The ports -/

/-- V42: RESET leaves FAULT, whatever else is presented. -/
theorem test_reset_leaves_fault :
    afterStep { faultState with inputs := [⟨true, true, 0x200, true⟩] } (fun t => (t.phase, t.faultCause, t.out)) =
    some (.idle, .noFault, []) := by decide

/-- No command is accepted at the moment a code is transferred (30_encoding.md R71, R82). -/
theorem test_command_waits_for_transfer :
    afterStep { waitingState with inputs := [⟨false, true, 0x100, true⟩] } (fun t => (t.phase, t.pending)) =
    some (.run, none) := by decide

theorem test_fetch_word_runs_first :
    afterStep (State.reset.withFetchWord 10 0x200) (fun t => (t.phase, t.nextCode)) = some (.ready, 256) := by decide

/-! ### The textual form (30_encoding.md R83, R84) -/

theorem test_read_program :
    readProgram "START # begin\nBYTE 'A'\n  BYTE 0x42\nBYTE 255\nEOS" =
    some [.start, .byte 65, .byte 66, .byte 255, .eos] := by decide
theorem test_read_compress : readProgram "RESET\nCOMPRESS \"AB\"\nCOMPRESS 0 0xff" =
    some [.reset, .compress [65, 66], .compress [0, 255]] := by decide
theorem test_read_refuses : readProgram "BYTE 256" = none ∧ readProgram "STARTED" = none := by decide

/-! ### A state of the invariant -/

/-- The state of V16 with its output meets the invariant of the machine. -/
theorem runState_inv : MachineInv (runState 65 258 [65, 66]) := by
  have none_above : ∀ a, 258 ≤ a → memRead (runState 65 258 [65, 66]).toCoreState a = none := fun a h =>
    memRead_unpopulated _ (by omega) h
  have at256 : memRead (runState 65 258 [65, 66]).toCoreState 256 = some (.pair ⟨65, 0x42⟩) := by decide
  have at257 : memRead (runState 65 258 [65, 66]).toCoreState 257 = some (.pair ⟨66, 0x41⟩) := by decide
  have next : (runState 65 258 [65, 66]).nextCode.toNat = 258 := by decide
  refine ⟨by decide, by decide, by decide, fun v h => ?_, fun h => ?_, fun _ => ?_⟩
  · exact absurd h (by simp [runState, State.reset])
  · exact absurd h (by simp [runState])
  · refine ⟨rfl, by decide, by decide, fun p h => ?_, fun a low high => ?_, fun a b low ab high => ?_, fun v h => ?_,
      fun _ => by decide, fun h => absurd h (by simp [runState]), fun k e h => ?_, fun h => absurd h (by simp [runState])⟩
    · obtain rfl : 65 = p := by simpa [runState] using h
      decide
    · rw [next] at high
      simp only [Config.alphabetSize] at low
      obtain rfl | rfl : a = 256 ∨ a = 257 := by omega
      · exact ⟨_, at256, by decide⟩
      · exact ⟨_, at257, by decide⟩
    · rw [next] at high
      simp only [Config.alphabetSize] at low
      obtain ⟨rfl, rfl⟩ : a = 256 ∧ b = 257 := by omega
      rw [at256, at257]
      decide
    · have : v = 65 ∨ v = 66 := by simpa [runState] using h
      rcases this with rfl | rfl <;> decide
    · match k with
      | 0 =>
        rw [show Config.alphabetSize + 0 = 256 from rfl, at256] at h
        obtain rfl : (⟨65, 0x42⟩ : PairEntry Config.codeWidth) = e := by simpa using h
        rfl
      | 1 =>
        rw [show Config.alphabetSize + 1 = 257 from rfl, at257] at h
        obtain rfl : (⟨66, 0x41⟩ : PairEntry Config.codeWidth) = e := by simpa using h
        rfl
      | k + 2 =>
        rw [none_above _ (by simp only [Config.alphabetSize]; omega)] at h
        exact absurd h (by simp)

/-! ### Witnesses: a state and operands that meet the hypotheses of each statement -/

theorem witness_DecodeEncodeAgree : (Instr.byte 0xFF).wellFormed = true ∧ Instr.reserved.wellFormed = true := by decide
theorem witness_ReservedIllegalAndIgnoredEncodings :
    opField 0x3FF = 0b11 ∧ cmdReady State.reset.toCoreState = true ∧
    opField 0x100 ≠ 0b11 ∧ State.reset.phase ∉ legalPhases (decode 0x100) ∧
    opField 0x2A5 = opField 0x200 ∧ opField 0x2A5 ≠ 0b00 := by decide
theorem witness_LiteralCodeIsTheByte :
    8 ≤ Config.codeWidth ∧ inRun (runState 65 258 [65, 66]).toCoreState ∧ RunInv (runState 65 258 [65, 66]).toCoreState :=
  ⟨by decide, .inr (.inl rfl), runState_inv.run (.inr (.inl rfl))⟩
theorem witness_PhaseEncodings : 5 ≤ (0b101 : BitVec 3).toNat ∧ 5 ≤ (0b111 : BitVec 3).toNat := by decide
theorem witness_SearchFindsLeastMatch :
    8 ≤ Config.codeWidth ∧ (runState 65 258 []).nextCode.toNat ≤ Config.tableSize Config.codeWidth ∧
    (saturatedState 0).nextCode.toNat ≤ Config.tableSize Config.codeWidth := by decide
theorem witness_SearchIsContentLookup :
    (runState 65 258 []).nextCode.toNat ≤ Config.tableSize Config.codeWidth ∧ Memory.wf (runState 65 258 []).table := by
  decide
theorem witness_InsertLearnsUntilSaturated :
    (saturatedState 0).nextCode.toNat = Config.tableSize Config.codeWidth ∧ 256 ≤ (saturatedState 0).nextCode.toNat ∧
    256 ≤ readyState.nextCode.toNat ∧ readyState.nextCode.toNat < Config.tableSize Config.codeWidth ∧
    (runState 227 4095 []).nextCode.toNat < Config.tableSize Config.codeWidth := by decide
theorem witness_SearchFindsTheInsertedEntry :
    256 ≤ (runState 66 258 []).nextCode.toNat ∧ (runState 66 258 []).nextCode.toNat < Config.tableSize Config.codeWidth ∧
    search (runState 66 258 []).toCoreState 66 0x42 = none := by decide
theorem witness_canStart : canStart State.reset.toCoreState ∧ canStart doneState.toCoreState ∧
    canStart (resetCore 0 : CoreState 8) ∧ canStart (resetCore 0 : CoreState 9) := by
  refine ⟨⟨.inl rfl, rfl⟩, ⟨.inr rfl, rfl⟩, ⟨.inl rfl, rfl⟩, ⟨.inl rfl, rfl⟩⟩
theorem witness_StartBeginsARun :
    cmdReady State.reset.toCoreState = true ∧ State.reset.phase = .idle ∧
    cmdReady doneState.toCoreState = true ∧ doneState.phase = .done ∧
    canStart (resetCore 0 : CoreState 8) ∧ canStart (resetCore 0 : CoreState 9) :=
  ⟨by decide, rfl, by decide, rfl, ⟨.inl rfl, rfl⟩, .inl rfl, rfl⟩
theorem witness_FirstByteSeedsThePrefix : cmdReady readyState.toCoreState = true ∧ readyState.phase = .ready := by decide
theorem witness_ByteHitExtendsThePrefix :
    cmdReady (saturatedState 65).toCoreState = true ∧ (saturatedState 65).phase = .run ∧
    (saturatedState 65).currentPrefixCode = some 65 ∧ search (runState 65 258 []).toCoreState 65 0x42 = some 256 ∧
    search (runState 66 258 []).toCoreState 66 0x41 = some 257 ∧
    (saturatedState 65).nextCode.toNat ≤ Config.tableSize Config.codeWidth := by decide
theorem witness_ByteMissEmitsAndLearns :
    cmdReady (runState 66 258 []).toCoreState = true ∧ (runState 66 258 []).phase = .run ∧
    (runState 66 258 []).currentPrefixCode = some 66 ∧ search (runState 66 258 []).toCoreState 66 0x42 = none ∧
    256 ≤ (runState 66 258 []).nextCode.toNat ∧
    (runState 66 258 []).nextCode.toNat < Config.tableSize Config.codeWidth := by decide
/-- At code width 12 a saturated search scans 3840 entries, so the miss is shown by the scan's own law. -/
theorem witness_ByteMissWhenSaturated :
    cmdReady (saturatedState 2).toCoreState = true ∧ (saturatedState 2).phase = .run ∧
    (saturatedState 2).currentPrefixCode = some 2 ∧ search (saturatedState 2).toCoreState 2 0x04 = none ∧
    (saturatedState 2).nextCode.toNat = Config.tableSize Config.codeWidth := by
  refine ⟨by decide, rfl, rfl, ?_, by decide⟩
  have absent : ∀ a, Memory.read (saturatedState 2).table a ≠ some ⟨2, 0x04⟩ := by
    intro a
    simp only [saturatedState, runState, Memory.read]
    split
    · decide
    · split <;> decide
  cases h : search (saturatedState 2).toCoreState 2 0x04 with
  | none => rfl
  | some idx =>
    obtain ⟨j, hj, _⟩ := Option.map_eq_some_iff.mp h
    obtain ⟨low, _, hit, _⟩ := scan_some hj
    have low' : 256 ≤ j := low
    by_cases high : j < (saturatedState 2).nextCode.toNat
    · rw [memRead_pair _ low' high] at hit
      obtain ⟨e, he, hp⟩ := Option.map_eq_some_iff.mp hit
      obtain rfl : e = ⟨2, 0x04⟩ := by simpa using hp
      exact absurd he (absent j)
    · rw [memRead_unpopulated _ low' (Nat.le_of_not_lt high)] at hit
      exact absurd hit (by simp)
theorem witness_ByteEmitsAndInsertsAtMostOnce :
    ∃ t, MachineInv (runState 65 258 [65, 66]) ∧ cmdReady (runState 65 258 [65, 66]).toCoreState = true ∧
      (runState 65 258 [65, 66]).phase = .run ∧ exec (.byte 0x43) (runState 65 258 [65, 66]) = .next t :=
  ⟨_, runState_inv, by decide, rfl, rfl⟩
theorem witness_EosOnEmptyInput : cmdReady readyState.toCoreState = true ∧ readyState.phase = .ready := by decide
theorem witness_EosFlushesThePrefix :
    cmdReady (runState 257 258 []).toCoreState = true ∧ (runState 257 258 []).phase = .run ∧
    (runState 257 258 []).currentPrefixCode = some 257 := by decide
theorem witness_ReservedOpcodeFaults :
    (0x3AB : CommandWord) &&& 0x300 = 0x300 ∧ cmdReady readyState.toCoreState = true := by decide
theorem witness_OutOfPhaseCommandsFault :
    cmdReady readyState.toCoreState = true ∧ readyState.phase = .ready ∧ (runState 65 258 []).phase = .run ∧
    cmdReady doneState.toCoreState = true ∧ doneState.phase = .done ∧ State.reset.phase = .idle ∧
    faultState.phase = .fault := by decide
theorem witness_FaultsExactlyWhenIllegal :
    MachineInv (runState 65 258 [65, 66]) ∧ cmdReady (runState 65 258 [65, 66]).toCoreState = true :=
  ⟨runState_inv, by decide⟩
theorem witness_FaultPhaseHoldsUntilReset :
    faultState.phase = .fault ∧ resetting.rst = true ∧ (presenting 0x200).rst = false := by decide
theorem witness_ResetEvent :
    let s := { runState 256 258 [65, 66] with inputs := [⟨true, true, 0x041, true⟩] }
    s.inputs = [⟨true, true, 0x041, true⟩] ∧ (⟨true, true, 0x041, true⟩ : PortInputs).rst = true := by decide
theorem witness_PhaseTransitions :
    MachineInv (runState 65 258 [65, 66]) ∧ cmdReady (runState 65 258 [65, 66]).toCoreState = true ∧
    faultState.phase = .fault ∧ acceptedWord faultState = none ∧ ∃ t, step faultState = .next t :=
  ⟨runState_inv, by decide, rfl, rfl, _, rfl⟩
theorem witness_StepRunsThePresentedCommand :
    let s := { readyState with inputs := [presenting 0x041] }
    s.inputs = [presenting 0x041] ∧ (presenting 0x041).rst = false ∧ (presenting 0x041).cmdValid = true ∧
    codeValid s.toCoreState = false ∧ decodeTableWord 10 (presenting 0x041).cmd.toNat = some (.byte 0x41) := by decide
theorem witness_OnlyAcceptedCommandsAct :
    let s := { waitingState with inputs := [⟨false, true, 0x100, true⟩] }
    acceptedWord s = none ∧ ∀ m ∈ s.inputs, m.rst = false := by decide
theorem witness_CodeHeldUntilTransferred :
    waitingState.phase ≠ .fault ∧ waitingState.pending = some 65 ∧ accepting.rst = false ∧ accepting.codeReady = true ∧
    (presenting 0x041).rst = false ∧ (presenting 0x041).codeReady = false := by decide
theorem witness_EmittedCodesAreTransferredOnceInOrder :
    ∃ t, MachineInv { runState 65 258 [65, 66] with inputs := [presenting 0x100, accepting] } ∧
      noReset 2 { runState 65 258 [65, 66] with inputs := [presenting 0x100, accepting] } ∧
      (∀ v ∈ acceptedWords 2 { runState 65 258 [65, 66] with inputs := [presenting 0x100, accepting] },
        decode v ≠ .start) ∧
      steps 2 { runState 65 258 [65, 66] with inputs := [presenting 0x100, accepting] } = .next t :=
  ⟨_, runState_inv, by unfold noReset; decide, by decide, rfl⟩
theorem witness_StatusOutputs : State.reset.phase = .idle ∧ inRun readyState.toCoreState := ⟨rfl, .inl rfl⟩
theorem witness_ByteFrame :
    (∃ t, exec (.byte 0x43) (runState 65 258 []) = .next t) ∧
    insertAddress (runState 65 258 []).toCoreState = some 258 ∧
    insertAddress (runState 65 4095 []).toCoreState = some 4095 ∧
    insertAddress (saturatedState 65).toCoreState = none := ⟨⟨_, rfl⟩, by decide, by decide, by decide⟩
theorem witness_EosStartReservedFrame :
    (∃ t, exec .eos (runState 65 258 []) = .next t) ∧ (∃ t, exec .start doneState = .next t) ∧
    ∃ t, exec .reserved readyState = .next t := ⟨⟨_, rfl⟩, ⟨_, rfl⟩, ⟨_, rfl⟩⟩
theorem witness_InvariantKeptByEveryStep :
    ∃ t, MachineInv { runState 65 258 [65, 66] with inputs := [presenting 0x041] } ∧
      step { runState 65 258 [65, 66] with inputs := [presenting 0x041] } = .next t := ⟨_, runState_inv, rfl⟩
theorem witness_LegalCommandsNeverFail :
    MachineInv (runState 65 258 [65, 66]) ∧ cmdReady (runState 65 258 [65, 66]).toCoreState = true ∧
    (runState 65 258 [65, 66]).phase ∈ legalPhases .eos := ⟨runState_inv, by decide, by decide⟩
theorem witness_EmittedCodesArePopulated :
    ∃ t u, MachineInv (runState 65 258 [65, 66]) ∧ exec .eos (runState 65 258 [65, 66]) = .next t ∧
      t.out = (runState 65 258 [65, 66]).out ++ [65] ∧ noReset 1 t ∧
      (∀ word ∈ acceptedWords 1 t, decode word ≠ .start) ∧ steps 1 t = .next u :=
  ⟨_, _, runState_inv, rfl, rfl, by unfold noReset; decide, by decide, rfl⟩
theorem witness_SaturationIsPermanent :
    ∃ t, full (saturatedState 65).toCoreState = true ∧
      noReset 1 { saturatedState 65 with inputs := [presenting 0x042] } ∧
      (∀ v ∈ acceptedWords 1 { saturatedState 65 with inputs := [presenting 0x042] }, decode v ≠ .start) ∧
      steps 1 { saturatedState 65 with inputs := [presenting 0x042] } = .next t :=
  ⟨_, by decide, by unfold noReset; decide, by decide, rfl⟩
theorem witness_TableGrowsMonotonically :
    ∃ t, noReset 1 { runState 65 258 [] with inputs := [presenting 0x043] } ∧
      (∀ v ∈ acceptedWords 1 { runState 65 258 [] with inputs := [presenting 0x043] }, decode v ≠ .start) ∧
      steps 1 { runState 65 258 [] with inputs := [presenting 0x043] } = .next t :=
  ⟨_, by unfold noReset; decide, by decide, rfl⟩
theorem witness_ExpansionsDistinctAndClosed :
    inRun (runState 65 258 [65, 66]).toCoreState ∧ RunInv (runState 65 258 [65, 66]).toCoreState ∧
    expand (runState 65 258 [65, 66]).toCoreState 256 = some ([0x41] ++ [0x42]) ∧
    256 < (runState 65 258 [65, 66]).nextCode.toNat :=
  ⟨.inr (.inl rfl), runState_inv.run (.inr (.inl rfl)), by decide, by decide⟩
theorem witness_MatchIsLongestAtAMiss :
    (runState 65 258 [65, 66]).phase = .run ∧ RunInv (runState 65 258 [65, 66]).toCoreState ∧
    (runState 65 258 [65, 66]).currentPrefixCode = some 65 ∧
    search (runState 65 258 [65, 66]).toCoreState 65 0x41 = none :=
  ⟨rfl, runState_inv.run (.inr (.inl rfl)), rfl, by decide⟩
theorem witness_RunComputesCompress : 8 ≤ Config.codeWidth ∧ canStart State.reset.toCoreState := ⟨by decide, .inl rfl, rfl⟩
theorem witness_RunAtThePortsComputesCompress :
    let s := { doneState with inputs := (compressCommands [0x41]).flatMap commandMoments ++ [resetting] }
    canStart s.toCoreState ∧ s.inputs = (compressCommands [0x41]).flatMap commandMoments ++ [resetting] :=
  ⟨⟨.inr rfl, rfl⟩, rfl⟩
theorem witness_StepsAreTheAcceptedCommands :
    ∃ t, noReset 2 { State.reset with inputs := [presenting 0x200, presenting 0x041] } ∧
      steps 2 { State.reset with inputs := [presenting 0x200, presenting 0x041] } = .next t :=
  ⟨_, by unfold noReset; decide, rfl⟩
/-- Two schedules of the empty run: at once from reset, and with a moment of waiting from DONE. -/
theorem witness_OutputDependsOnInputOnly :
    let s₁ := { State.reset with inputs := [presenting 0x200, presenting 0x100] }
    let s₂ := { doneState with inputs := [presenting 0x200, accepting, presenting 0x1FF] }
    canStart s₁.toCoreState ∧ canStart s₂.toCoreState ∧ noReset 2 s₁ ∧ noReset 3 s₂ ∧
    (acceptedWords 2 s₁).map decode = compressCommands [] ∧ (acceptedWords 3 s₂).map decode = compressCommands [] ∧
    (∃ t₁, steps 2 s₁ = .next t₁ ∧ t₁.pending = none) ∧ ∃ t₂, steps 3 s₂ = .next t₂ ∧ t₂.pending = none := by
  refine ⟨⟨.inl rfl, rfl⟩, ⟨.inr rfl, rfl⟩, by unfold noReset; decide, by unfold noReset; decide, by decide, by decide,
    ⟨_, rfl, rfl⟩, ⟨_, rfl, rfl⟩⟩
theorem witness_RepeatedRunsAgree :
    ∃ t₁ t₂, canStart doneState.toCoreState ∧
      runCommands (compressCommands [0x41]) doneState.toCoreState = .next t₁ ∧
      runCommands [.start, .eos] t₁ = .next t₂ ∧ t₂.phase = .done := ⟨_, _, ⟨.inr rfl, rfl⟩, rfl, rfl, rfl⟩
theorem witness_OutputExpandsToTheInput : canStart doneState.toCoreState ∧ ([0x41] : List Byte) ≠ [] :=
  ⟨⟨.inr rfl, rfl⟩, by decide⟩
theorem witness_EmptyAndSingleByteInputs : 8 ≤ 8 ∧ canStart (resetCore 3 : CoreState 8) := ⟨by decide, .inl rfl, rfl⟩
theorem witness_NoRepeatsLaw :
    canStart (resetCore 3 : CoreState 9) ∧ (([0x41, 0x42, 0x43] : List Byte).zip [0x42, 0x43]).Nodup ∧
    ∃ t₁, runCommands (openRun [0x41]) (resetCore 3 : CoreState 9) = .next t₁ ∧
      countMisses [0x42, 0x43] t₁ = ([0x42, 0x43] : List Byte).length := ⟨⟨.inl rfl, rfl⟩, by decide, _, rfl, by decide⟩
theorem witness_LearningLaw : 9 ≤ 9 ∧ (0x41 : Byte) ≠ 0x42 ∧ canStart (resetCore 3 : CoreState 9) :=
  ⟨by decide, by decide, .inl rfl, rfl⟩
theorem witness_RunCounts : 8 ≤ 9 ∧ canStart (resetCore 3 : CoreState 9) := ⟨by decide, .inl rfl, rfl⟩
theorem witness_WidthEightIsIdentity :
    (startRun (resetCore 3 : CoreState 8)).nextCode.toNat ≤ 256 ∧ canStart (resetCore 3 : CoreState 8) :=
  ⟨by decide, .inl rfl, rfl⟩

end Sys2Proof.Tests
end

section
/-! PROOFS. The step at a moment that presents a command word: which word is decoded, which step is taken, and when the
word is accepted (00_scope.md R13, 30_encoding.md R71). -/

namespace Sys2Proof.Machine

/-- A command word always fits the 10 wires, so the decoder on numbers reads from it what `decode` does. -/
theorem decodeTableWord_toNat (nbits : Nat) (word : CommandWord) :
    decodeTableWord nbits word.toNat = some (decode word) := by
  have fits : isCommandWord word.toNat = true := decide_eq_true word.isLt
  simp [decodeTableWord, decodeNumber, fits, Except.toOption]

/-- While no code waits, FAULT is the only obstacle to accepting a command. -/
theorem cmdReady_iff_of_not_codeValid {w : Nat} {s : CoreState w} (hv : codeValid s = false) :
    cmdReady s = true ↔ s.phase ≠ .fault := by
  rw [cmdReady_iff]
  refine ⟨fun h => h.1, fun hp => ⟨hp, ?_⟩⟩
  cases hw : s.pending with
  | none => rfl
  | some v =>
    have waits : codeValid s = true := codeValid_iff.mpr ⟨hp, v, hw⟩
    rw [hv] at waits
    cases waits

variable {s : State} {m : PortInputs} {rest : List PortInputs}

theorem portEvent_command (hr : m.rst = false) (hc : m.cmdValid = true) (hv : codeValid s.toCoreState = false) :
    portEvent m s = .command m.cmd := by
  simp [portEvent, hr, hc, hv]

theorem step_command (hi : s.inputs = m :: rest) (hr : m.rst = false) (hc : m.cmdValid = true)
    (hv : codeValid s.toCoreState = false) : step s = exec (decode m.cmd) (s.advance rest) := by
  rw [step_cons hi, portEvent_command hr hc hv]

theorem acceptedWord_presented_iff (hi : s.inputs = m :: rest) (hr : m.rst = false) (hc : m.cmdValid = true) :
    acceptedWord s = some m.cmd ↔ cmdReady s.toCoreState = true := by
  simp [acceptedWord, hi, hr, hc]

/-- Settles O28: with no code waiting the port event is the presented word, and `cmd_ready` is 0 only in FAULT. -/
theorem stepRunsThePresentedCommand : Obligations.StepRunsThePresentedCommand := by
  intro i s m rest _ hi hr hc hv hd
  obtain rfl : decode m.cmd = i := Option.some.inj ((decodeTableWord_toNat 10 m.cmd).symm.trans hd)
  exact ⟨step_command hi hr hc hv,
    (acceptedWord_presented_iff hi hr hc).trans (cmdReady_iff_of_not_codeValid hv)⟩

end Sys2Proof.Machine
end

section
/-! PROOFS. Phase control and the visible state (10_state.md): the transition table of `phase`, the state after reset,
the status outputs, and the bit layouts. -/

namespace Sys2Proof.Machine

open Sys2Proof.Safety

variable {w : Nat}

/-! ### The transition table of `phase` (R33) -/

/-- The cells of R33's table that read FAULT are those of a command that is not legal in the phase. -/
theorem phaseAfter_eq_fault_iff (i : Instr) (p : Phase) : phaseAfter i p = .fault ↔ p ∉ legalPhases i := by
  cases i <;> cases p <;> simp [phaseAfter, legalPhases]

/-- The cause with which a command that may not be executed faults (60_exceptions.md R164, R168). -/
def illegalCause (i : Instr) : FaultCause := if i = .reserved then .illegalOpcode else .illegalPhase

@[simp] theorem byteFound_phase (p : Code w) (c : Byte) (s : CoreState w) (r : Option (Code w)) :
    (byteFound p c s r).phase = .run := by
  cases r <;> rfl

@[simp] theorem byteFound_faultCause (p : Code w) (c : Byte) (s : CoreState w) (r : Option (Code w)) :
    (byteFound p c s r).faultCause = s.faultCause := by
  cases r with
  | none => simp [byteFound, byteMiss]
  | some idx => rfl

variable {s : CoreState w} {i : Instr}

/-- In RUN the prefix register can be read. -/
theorem prefix_of_run (inv : CoreInv s) (hp : s.phase = .run) : ∃ p, s.currentPrefixCode = some p :=
  Option.isSome_iff_exists.mp (inv.prefix_exactly_in_run.mpr hp)

/-- An accepted command that is not legal in the phase takes the protocol fault of its cause, and only that. -/
theorem command_illegal (hr : cmdReady s = true) (hp : s.phase ∉ legalPhases i) :
    command i s = .next (raiseFault (illegalCause i) s) := by
  cases i with
  | byte b => exact (accepted_of_ready hr).trans (inPhases_illegal hp)
  | eos => exact (accepted_of_ready hr).trans (inPhases_illegal hp)
  | start => exact (accepted_of_ready hr).trans (inPhases_illegal hp)
  | reserved => exact reservedCommand_of_ready hr

/-- An accepted command that is legal in the phase goes on to the phase of R33's table and leaves the cause alone. -/
theorem command_legal (inv : CoreInv s) (hr : cmdReady s = true) (hp : s.phase ∈ legalPhases i) :
    ∃ t, command i s = .next t ∧ t.phase = phaseAfter i s.phase ∧ t.faultCause = s.faultCause := by
  cases i with
  | byte b =>
    obtain ready | run : s.phase = .ready ∨ s.phase = .run := by simpa [legalPhases] using hp
    · exact ⟨_, byteCommand_ready hr ready b, by rw [ready]; rfl, rfl⟩
    · obtain ⟨p, hc⟩ := prefix_of_run inv run
      exact ⟨_, byteCommand_run hr run hc b, by simp [run, phaseAfter], by simp⟩
  | eos =>
    obtain ready | run : s.phase = .ready ∨ s.phase = .run := by simpa [legalPhases] using hp
    · exact ⟨_, eosCommand_ready hr ready, by rw [ready]; rfl, rfl⟩
    · obtain ⟨p, hc⟩ := prefix_of_run inv run
      exact ⟨_, eosCommand_run hr run hc, by rw [run]; rfl, rfl⟩
  | start =>
    have legal : s.phase = .idle ∨ s.phase = .done := by simpa [legalPhases] using hp
    refine ⟨_, startCommand_legal hr legal, ?_, rfl⟩
    obtain idle | done := legal
    · rw [idle]; rfl
    · rw [done]; rfl
  | reserved => simp [legalPhases] at hp

/-- An accepted command leads to the cell of R33's table, with the command's cause where the cell is FAULT. -/
theorem command_phaseAfter (inv : CoreInv s) (hr : cmdReady s = true) (i : Instr) :
    ∃ t, command i s = .next t ∧ t.phase = phaseAfter i s.phase ∧
      (phaseAfter i s.phase = .fault → t.faultCause = illegalCause i) := by
  by_cases hp : s.phase ∈ legalPhases i
  · obtain ⟨t, next, phase, _⟩ := command_legal inv hr hp
    exact ⟨t, next, phase, fun cell => absurd hp ((phaseAfter_eq_fault_iff i _).mp cell)⟩
  · exact ⟨_, command_illegal hr hp, ((phaseAfter_eq_fault_iff i _).mpr hp).symm, fun _ => rfl⟩

/-- The machine ignores a command that it cannot accept (60_exceptions.md R166). -/
theorem exec_of_not_ready {m : State} (hr : cmdReady m.toCoreState = false) (i : Instr) : exec i m = .next m :=
  exec_of_command (command_of_not_ready hr i)

theorem cmdReady_of_fault (hp : s.phase = .fault) : cmdReady s = false := by
  simp [cmdReady, isFault, hp]

/-- A step that accepts no command leaves the phase, unless reset is asserted. -/
theorem step_phase_of_no_command {m t : State} (h : step m = .next t) (none_accepted : acceptedWord m = none) :
    t.phase = if (m.inputs.head?.map fun x => x.rst) = some true then .idle else m.phase := by
  obtain ⟨inputs, rfl⟩ | ⟨x, rest, inputs, event⟩ := step_cases h
  · simp [inputs]
  · obtain ⟨rst, rfl⟩ | ⟨rst, _, _, rfl⟩ | ⟨rst, _, _, rfl⟩ | ⟨rst, _, valid, executed⟩ | ⟨rst, _, _, rfl⟩ := event
    · simp [inputs, rst]
    · simp [inputs, rst]
    · simp [inputs, rst]
    · have not_ready : cmdReady (m.advance rest).toCoreState = false := by
        rw [advance_core, ← Bool.not_eq_true, ← acceptedWord_presented_iff inputs rst valid, none_accepted]
        simp
      obtain rfl : m.advance rest = t := by simpa [exec_of_not_ready not_ready] using executed
      simp [inputs, rst]
    · simp [inputs, rst]

/-- Settles O27: an accepted command by its legality in the phase, any other step by what the moment does. -/
theorem phaseTransitions : Obligations.PhaseTransitions := by
  refine ⟨fun i s inv hr => ?_, fun i s hp => exec_of_not_ready (cmdReady_of_fault hp) i,
    fun s t h none_accepted => step_phase_of_no_command h none_accepted⟩
  obtain ⟨t, next, phase, cause⟩ := command_phaseAfter inv hr i
  exact ⟨_, exec_of_command next, phase, cause⟩

/-! ### The bit layouts (R30, R32) -/

/-- R30: the prefix fills the bits from 8 up, the byte the eight bits below. -/
theorem toWord_toNat (e : PairEntry w) : e.toWord.toNat = e.prefixCode.toNat * 256 + e.nextByte.toNat := by
  rw [PairEntry.toWord, BitVec.toNat_append, ← Nat.shiftLeft_add_eq_or_of_lt e.nextByte.isLt, Nat.shiftLeft_eq]

theorem ofWord_toWord (e : PairEntry w) : PairEntry.ofWord e.toWord = e := by
  rw [PairEntry.ofWord, PairEntry.toWord, BitVec.extractLsb'_append_eq_left, BitVec.extractLsb'_append_eq_right]

theorem toWord_ofWord (v : BitVec (w + 8)) : (PairEntry.ofWord v).toWord = v := by
  simp [PairEntry.ofWord, PairEntry.toWord, BitVec.extractLsb'_append_extractLsb']

/-- Settles O7: the value of the word, and that packing and unpacking are inverse to each other. -/
theorem storageWordLayout : Obligations.StorageWordLayout :=
  fun _ p c => ⟨toWord_toNat ⟨p, c⟩, ofWord_toWord ⟨p, c⟩, toWord_ofWord⟩

theorem phase_encode_lt (p : Phase) : p.encode.toNat < 5 := by
  cases p <;> decide

theorem ofEncoding_encode (p : Phase) : Phase.ofEncoding p.encode = some p := by
  cases p <;> rfl

theorem ofEncoding_of_le {v : BitVec 3} (h : 5 ≤ v.toNat) : Phase.ofEncoding v = none := by
  rw [Phase.ofEncoding, List.find?_eq_none]
  intro p _ hit
  have := phase_encode_lt p
  rw [eq_of_beq hit] at this
  omega

/-- Settles O8: no phase is encoded above 4, so 5, 6 and 7 are read back as none. -/
theorem phaseEncodings : Obligations.PhaseEncodings :=
  ⟨rfl, rfl, rfl, rfl, rfl, ofEncoding_encode, fun _ => ofEncoding_of_le⟩

/-! ### The status outputs (R34, R36) -/

theorem full_iff : full s = true ↔ s.nextCode.toNat = Config.tableSize w := by
  simp [full]

theorem stFull_of_inRun (h : inRun s) (free : BitVec 1) : stFull free s = BitVec.ofBool (full s) := by
  obtain h | h | h := h <;> simp [stFull, h]

theorem stNextCode_of_inRun (h : inRun s) (free : NextCode w) : stNextCode free s = s.nextCode := by
  obtain h | h | h := h <;> simp [stNextCode, h]

theorem stFull_of_idle (h : s.phase = .idle) (free : BitVec 1) : stFull free s = 0 := by
  simp [stFull, h]

theorem stFull_eq_one_iff (h : inRun s) (free : BitVec 1) :
    stFull free s = 1 ↔ s.nextCode.toNat = Config.tableSize w := by
  rw [stFull_of_inRun h, ← full_iff]
  cases full s <;> decide

theorem stFull_eq_zero_iff (h : inRun s) (free : BitVec 1) :
    stFull free s = 0 ↔ s.nextCode.toNat ≠ Config.tableSize w := by
  rw [stFull_of_inRun h, ne_eq, ← full_iff]
  cases full s <;> decide

/-- Settles O32: in READY, RUN and DONE no status output is free, and `st_full` is the flag `full`. -/
theorem statusOutputs : Obligations.StatusOutputs :=
  fun _ => ⟨rfl, rfl, fun idle => stFull_of_idle idle _, fun run =>
    ⟨stFull_eq_one_iff run _, stFull_eq_zero_iff run _, stNextCode_of_inRun run _⟩⟩

/-! ### The state after reset (R41) -/

theorem cmdReady_resetCore (free : NextCode w) : cmdReady (resetCore free) = true :=
  cmdReady_iff.mpr ⟨by simp, rfl⟩

theorem codeValid_resetCore (free : NextCode w) : codeValid (resetCore free) = false := by
  simp [codeValid]

/-- Settles O26: the core is `resetCore`, in IDLE with nothing emitted. -/
theorem stateAfterReset : Obligations.StateAfterReset :=
  ⟨rfl, rfl, rfl, rfl, cmdReady_resetCore (w := Config.codeWidth) 0, codeValid_resetCore (w := Config.codeWidth) 0, rfl,
    stFull_of_idle (s := State.reset.toCoreState) rfl (Config.freeStFull 0), rfl⟩

/-- RESET leaves a core of the invariant, whatever it leaves in `next_code`: there is no run, and nothing is listed,
waiting or emitted. -/
theorem resetCore_inv (free : NextCode w) : CoreInv (resetCore free) where
  table_wf := wf_nil
  prefix_exactly_in_run := by simp
  cause_exactly_in_fault := by simp
  pending_is_last := by simp
  idle_empty _ := rfl
  run h := by simp [inRun] at h

/-- Settles O35: the machine's reset is the core's RESET. -/
theorem invariantAtReset : Obligations.InvariantAtReset :=
  resetCore_inv 0

end Sys2Proof.Machine
end

section
/-! PROOFS. Memory (20_memory.md): any schedule of moments amounts to its accepted commands (R61), and an entry is
visible to the search right after its insertion (R62). -/

namespace Sys2Proof.Machine

open Sys2Proof.Safety

/-! ### Any schedule of moments (R61) -/

variable {w : Nat}

theorem transfer_of_ready {s : CoreState w} (hr : cmdReady s = true) : transfer s = s := by
  obtain ⟨_, pending⟩ := cmdReady_iff.mp hr
  rw [transfer, ← pending]

theorem codeValid_of_ready {s : CoreState w} (hr : cmdReady s = true) : codeValid s = false := by
  obtain ⟨_, pending⟩ := cmdReady_iff.mp hr
  simp [codeValid, pending]

theorem runCommands_cons {i : Instr} {s t : CoreState w} (h : command i s = .next t) (rest : List Instr) :
    runCommands (i :: rest) s = runCommands rest (transfer t) := by
  simp [runCommands, h]

variable {s t : State} {n : Nat} {word : CommandWord}

/-- A step uses up one moment, whatever happens at it. -/
theorem step_inputs (h : step s = .next t) : t.inputs = s.inputs.tail := by
  obtain ⟨inputs, rfl⟩ | ⟨m, rest, inputs, event⟩ := step_cases h
  · simp [inputs]
  · obtain ⟨_, rfl⟩ | ⟨_, _, _, rfl⟩ | ⟨_, _, _, rfl⟩ | ⟨_, _, _, executed⟩ | ⟨_, _, _, rfl⟩ := event
    · simp [inputs]
    · simp [inputs]
    · simp [inputs]
    · obtain ⟨_, kept, _⟩ := onCore_next ((exec_eq_onCore _ _).symm.trans executed)
      simp [inputs, kept]
    · simp [inputs]

theorem noReset_head {m : PortInputs} {rest : List PortInputs} (no_reset : noReset (n + 1) s)
    (hi : s.inputs = m :: rest) : m.rst = false :=
  no_reset m (by simp [hi])

theorem noReset_of_step (no_reset : noReset (n + 1) s) (h : step s = .next t) : noReset n t := by
  intro m later
  rw [step_inputs h] at later
  refine no_reset m ?_
  cases hi : s.inputs with
  | nil => simp [hi] at later
  | cons x rest => exact List.mem_cons_of_mem x (by simpa [hi] using later)

theorem steps_succ_eq_next_iff : steps (n + 1) s = .next t ↔ ∃ u, step s = .next u ∧ steps n u = .next t := by
  cases h : step s <;> simp [steps, h]

theorem acceptedWords_succ (h : step s = .next t) :
    acceptedWords (n + 1) s = (acceptedWord s).toList ++ acceptedWords n t := by
  simp [acceptedWords, h, nextState]

theorem acceptedWord_eq_some_iff :
    acceptedWord s = some word ↔ ∃ m rest, s.inputs = m :: rest ∧ m.rst = false ∧ m.cmdValid = true ∧
      cmdReady s.toCoreState = true ∧ m.cmd = word := by
  cases hi : s.inputs with
  | nil => simp [acceptedWord, hi]
  | cons m rest => simp [acceptedWord, hi, and_assoc]

/-- The step that accepts a word is the command step of the core, on which no code waits. -/
theorem command_of_acceptedWord (ha : acceptedWord s = some word) (h : step s = .next t) :
    command (decode word) (settled s) = .next t.toCoreState := by
  obtain ⟨m, rest, inputs, rst, valid, ready, rfl⟩ := acceptedWord_eq_some_iff.mp ha
  rw [step_command inputs rst valid (codeValid_of_ready ready), exec_eq_onCore] at h
  obtain ⟨executed, _, _⟩ := onCore_next h
  rwa [settled, transfer_of_ready ready]

/-- A word that is presented and not accepted leaves the core as it is. -/
theorem exec_of_not_accepted {m : PortInputs} {rest : List PortInputs} (ha : acceptedWord s = none)
    (hi : s.inputs = m :: rest) (hr : m.rst = false) (hc : m.cmdValid = true) :
    exec (decode m.cmd) (s.advance rest) = .next (s.advance rest) := by
  refine exec_of_not_ready ?_ _
  rw [advance_core, ← Bool.not_eq_true, ← acceptedWord_presented_iff hi hr hc, ha]
  simp

/-- A step that neither resets nor accepts a command does no more to the core than transfer its waiting code. -/
theorem settled_of_no_command (hr : ∀ m rest, s.inputs = m :: rest → m.rst = false) (ha : acceptedWord s = none)
    (h : step s = .next t) : settled t = settled s := by
  obtain ⟨_, rfl⟩ | ⟨m, rest, inputs, event⟩ := step_cases h
  · rfl
  · obtain ⟨rst, _⟩ | ⟨_, _, _, rfl⟩ | ⟨_, _, _, rfl⟩ | ⟨rst, _, valid, executed⟩ | ⟨_, _, _, rfl⟩ := event
    · simp [hr m rest inputs] at rst
    · rfl
    · rfl
    · obtain rfl : s.advance rest = t := by simpa [exec_of_not_accepted ha inputs rst valid] using executed
      rfl
    · rfl

/-- One step without RESET runs the command it accepts, if it accepts one. -/
theorem runCommands_acceptedWord (hr : ∀ m rest, s.inputs = m :: rest → m.rst = false) (h : step s = .next t)
    (is : List Instr) :
    runCommands ((acceptedWord s).toList.map decode ++ is) (settled s) = runCommands is (settled t) := by
  cases ha : acceptedWord s with
  | none => simp [settled_of_no_command hr ha h]
  | some word => exact runCommands_cons (command_of_acceptedWord ha h) is

/-- Settles O45, by induction on the number of steps: each runs the command that it accepts. -/
theorem stepsAreTheAcceptedCommands : Obligations.StepsAreTheAcceptedCommands := by
  intro n
  induction n with
  | zero =>
    intro s t _ h
    cases h
    rfl
  | succ n ih =>
    intro s t no_reset h
    obtain ⟨u, stepped, others⟩ := steps_succ_eq_next_iff.mp h
    rw [acceptedWords_succ stepped, List.map_append,
      runCommands_acceptedWord (fun _ _ => noReset_head no_reset) stepped]
    exact ih u t (noReset_of_step no_reset stepped) others

/-! ### An entry is found right after its insertion (R62) -/

variable {s : CoreState w} {p : Code w} {c : Byte}

theorem nextCode_insert (room : s.nextCode.toNat < Config.tableSize w) :
    (insert p c s).nextCode.toNat = s.nextCode.toNat + 1 := by
  rw [insert_of_lt room]
  exact nextCode_succ room

theorem memRead_insert_same (low : 256 ≤ s.nextCode.toNat) (room : s.nextCode.toNat < Config.tableSize w) :
    memRead (insert p c s) s.nextCode.toNat = some (.pair ⟨p, c⟩) := by
  rw [memRead_pair _ low (by rw [nextCode_insert room]; omega), insert_of_lt room]
  simp [read_write_same]

theorem memRead_insert_other (room : s.nextCode.toNat < Config.tableSize w) {a : Nat} (h : a ≠ s.nextCode.toNat) :
    memRead (insert p c s) a = memRead s a := by
  have next := nextCode_insert (p := p) (c := c) room
  by_cases literal : a < 256
  · simp [memRead_literal, literal]
  · rw [Nat.not_lt] at literal
    by_cases below : a < s.nextCode.toNat
    · rw [memRead_pair _ literal below, memRead_pair _ literal (by omega), insert_of_lt room]
      simp [read_write_other _ _ h]
    · rw [memRead_unpopulated _ literal (by omega), memRead_unpopulated _ literal (by omega)]

theorem search_eq_none_iff :
    search s p c = none ↔ ∀ a, 256 ≤ a → a < s.nextCode.toNat → memRead s a ≠ some (.pair ⟨p, c⟩) := by
  rw [search, Option.map_eq_none_iff, Config.alphabetSize]
  refine ⟨fun h a low high => scan_none h a low (by omega), fun absent => ?_⟩
  cases h : scan s p c (s.nextCode.toNat - 256) 256 with
  | none => rfl
  | some j =>
    obtain ⟨low, high, hit, _⟩ := scan_some h
    exact absurd hit (absent j low (by omega))

/-- The search answers the only address between 256 and `next_code` that holds the pair. -/
theorem search_eq_of_unique {a : Nat} (low : 256 ≤ a) (high : a < s.nextCode.toNat)
    (hit : memRead s a = some (.pair ⟨p, c⟩))
    (unique : ∀ k, 256 ≤ k → k < s.nextCode.toNat → memRead s k = some (.pair ⟨p, c⟩) → k = a) :
    search s p c = some (BitVec.ofNat w a) := by
  rw [search, Config.alphabetSize]
  cases h : scan s p c (s.nextCode.toNat - 256) 256 with
  | none => exact absurd hit (scan_none h a low (by omega))
  | some j =>
    obtain ⟨j_low, j_high, j_hit, _⟩ := scan_some h
    rw [unique j j_low (by omega) j_hit, Option.map_some]

/-- A pair that was not found is found at its own code once it is inserted. -/
theorem search_insert (low : 256 ≤ s.nextCode.toNat) (room : s.nextCode.toNat < Config.tableSize w)
    (missed : search s p c = none) :
    search (insert p c s) p c = some (BitVec.ofNat w s.nextCode.toNat) := by
  have next := nextCode_insert (p := p) (c := c) room
  refine search_eq_of_unique low (by omega) (memRead_insert_same low room) fun k k_low k_high hit => ?_
  by_contra other
  rw [memRead_insert_other room other] at hit
  exact search_eq_none_iff.mp missed k k_low (by omega) hit

theorem search_congr {s t : CoreState w} (hl : s.literalsPresent = t.literalsPresent) (ht : s.table = t.table)
    (hn : s.nextCode = t.nextCode) (p : Code w) (c : Byte) : search s p c = search t p c := by
  rw [search, search, hn, scan_congr (memRead_congr hl ht hn)]

/-- What a BYTE step learns at a miss, the search of the next BYTE step finds. -/
theorem search_byteMiss (low : 256 ≤ s.nextCode.toNat) (room : s.nextCode.toNat < Config.tableSize w)
    (missed : search s p c = none) :
    search (transfer (byteMiss p c s)) p c = some (BitVec.ofNat w s.nextCode.toNat) := by
  have emitted_missed : search (emit p s) p c = none := (search_congr (by simp) (by simp) (by simp) p c).trans missed
  have inserted_found : search (insert p c (emit p s)) p c = some (BitVec.ofNat w s.nextCode.toNat) :=
    search_insert (s := emit p s) low room emitted_missed
  rw [← inserted_found]
  exact search_congr (by simp [byteMiss]) (by simp [byteMiss]) (by simp [byteMiss]) p c

/-! ### A run over three equal bytes -/

theorem cmdReady_transfer (hp : s.phase ≠ .fault) : cmdReady (transfer s) = true :=
  cmdReady_iff.mpr ⟨hp, rfl⟩

theorem byteCommand_miss (hr : cmdReady s = true) (hp : s.phase = .run) (hc : s.currentPrefixCode = some p)
    (missed : search s p c = none) : byteCommand c s = .next (byteMiss p c s) := by
  rw [byteCommand_run hr hp hc, missed, byteFound]

theorem byteCommand_hit (hr : cmdReady s = true) (hp : s.phase = .run) (hc : s.currentPrefixCode = some p)
    {idx : Code w} (hit : search s p c = some idx) : byteCommand c s = .next (setPrefix idx s) := by
  rw [byteCommand_run hr hp hc, hit, byteFound]

/-- The state in RUN after a byte that missed and the same byte again, with the entry of the first as its prefix. -/
def afterMissAndHit (c : Byte) (s : CoreState w) : CoreState w :=
  transfer (setPrefix (BitVec.ofNat w s.nextCode.toNat) (transfer (byteMiss (literalCode w c) c s)))

/-- When the prefix is a byte's own code, a miss on the same byte restarts from that code, so the byte again asks for the
pair just learnt, and hits. -/
theorem runCommands_miss_hit (hr : cmdReady s = true) (hp : s.phase = .run)
    (hc : s.currentPrefixCode = some (literalCode w c)) (low : 256 ≤ s.nextCode.toNat)
    (room : s.nextCode.toNat < Config.tableSize w) (missed : search s (literalCode w c) c = none) (rest : List Instr) :
    runCommands (.byte c :: .byte c :: rest) s = runCommands rest (afterMissAndHit c s) := by
  have miss : command (.byte c) s = .next (byteMiss (literalCode w c) c s) := byteCommand_miss hr hp hc missed
  have hit : command (.byte c) (transfer (byteMiss (literalCode w c) c s)) = .next _ :=
    byteCommand_hit (cmdReady_transfer (by simp [byteMiss])) (by simp [byteMiss]) (by simp [byteMiss])
      (search_byteMiss low room missed)
  rw [runCommands_cons miss, runCommands_cons hit, afterMissAndHit]

theorem nextCode_startRun (hw : 8 ≤ w) (s : CoreState w) : (startRun s).nextCode.toNat = 256 := by
  have : 2 ^ 9 ≤ 2 ^ (w + 1) := Nat.pow_le_pow_right (by omega) (by omega)
  rw [startRun_nextCode, BitVec.toNat_ofNat, Config.alphabetSize, Nat.mod_eq_of_lt (by omega)]

theorem alphabetSize_lt_tableSize (hw : 8 < w) : 256 < Config.tableSize w :=
  Nat.pow_lt_pow_right (a := 2) (m := 8) (by omega) hw

/-- The state in RUN after START and a first byte. -/
def afterFirstByte (b : Byte) (s : CoreState w) : CoreState w := transfer (byteSeed b (transfer (startRun s)))

theorem runCommands_start_byte (h : canStart s) (b : Byte) (rest : List Instr) :
    runCommands (.start :: .byte b :: rest) s = runCommands rest (afterFirstByte b s) := by
  obtain ⟨phase, pending⟩ := h
  have ready : cmdReady s = true := cmdReady_iff.mpr ⟨by obtain h | h := phase <;> simp [h], pending⟩
  have start : command .start s = .next (startRun s) := startCommand_legal ready phase
  have seed : command (.byte b) (transfer (startRun s)) = .next (byteSeed b (transfer (startRun s))) :=
    byteCommand_ready (cmdReady_transfer (by simp)) (by simp) b
  rw [runCommands_cons start, runCommands_cons seed, afterFirstByte]

/-- Where there is room to learn, three equal bytes give the byte's code and the first learnt code. -/
theorem runCommands_three_equal_bytes (hw : 8 < w) (h : canStart s) (b : Byte) :
    ∃ t, runCommands (compressCommands [b, b, b]) s = .next t ∧ t.out = [literalCode w b, BitVec.ofNat w 256] := by
  have next : (afterFirstByte b s).nextCode.toNat = 256 := nextCode_startRun hw.le s
  have room : (afterFirstByte b s).nextCode.toNat < Config.tableSize w := by
    rw [next]
    exact alphabetSize_lt_tableSize hw
  have missed : search (afterFirstByte b s) (literalCode w b) b = none :=
    search_eq_none_iff.mpr fun a low high => by omega
  have flush : command .eos (afterMissAndHit b (afterFirstByte b s)) =
      .next (eosFlush (afterMissAndHit b (afterFirstByte b s)) (BitVec.ofNat w 256)) :=
    eosCommand_run rfl rfl (by rw [← next]; rfl)
  refine ⟨transfer (eosFlush (afterMissAndHit b (afterFirstByte b s)) (BitVec.ofNat w 256)), ?_, ?_⟩
  · calc runCommands (compressCommands [b, b, b]) s
        = runCommands [.byte b, .byte b, .eos] (afterFirstByte b s) := runCommands_start_byte h b _
      _ = runCommands [.eos] (afterMissAndHit b (afterFirstByte b s)) :=
          runCommands_miss_hit rfl rfl rfl next.ge room missed _
      _ = _ := runCommands_cons flush _
  · simp [afterMissAndHit, byteMiss, afterFirstByte, byteSeed]

/-- Settles O12: the search of the inserted pair in general, and the run over 0x41 three times. -/
theorem searchFindsTheInsertedEntry : Obligations.SearchFindsTheInsertedEntry :=
  ⟨fun _ _ _ _ _ low room missed => search_insert low room missed, by decide,
    fun _ h => runCommands_three_equal_bytes (by decide) h 0x41⟩

end Sys2Proof.Machine
end

section
/-! PROOFS. Encoding (30_encoding.md): the decoder and the encoder, the opcode map, the commands that fault, the
handshakes at the ports, and the line COMPRESS. -/

namespace Sys2Proof.Machine

open Sys2Proof.Safety

/-! ### The decoder and the encoder (R72 to R77) -/

variable {v v' : CommandWord} {i j : Instr}

/-- R77: the four opcodes, and the command that each decodes to. -/
theorem decode_cases (v : CommandWord) :
    (opField v = 0b00 ∧ decode v = .byte (argField v)) ∨ (opField v = 0b01 ∧ decode v = .eos) ∨
    (opField v = 0b10 ∧ decode v = .start) ∨ (opField v = 0b11 ∧ decode v = .reserved) := by
  have four : ∀ op : BitVec 2, op = 0b00 ∨ op = 0b01 ∨ op = 0b10 ∨ op = 0b11 := by decide
  obtain op | op | op | op := four (opField v)
  · exact .inl ⟨op, by simp [decode, op]⟩
  · exact .inr (.inl ⟨op, by simp [decode, op]⟩)
  · exact .inr (.inr (.inl ⟨op, by simp [decode, op]⟩))
  · exact .inr (.inr (.inr ⟨op, by simp [decode, op]⟩))

theorem opcodeOf_decode (v : CommandWord) : opcodeOf (decode v) = opField v := by
  obtain ⟨op, hd⟩ | ⟨op, hd⟩ | ⟨op, hd⟩ | ⟨op, hd⟩ := decode_cases v <;> rw [op, hd] <;> rfl

/-- The operand of a BYTE is the word's `arg` (R73). -/
theorem argField_of_decode_byte {b : Byte} (hd : decode v = .byte b) : argField v = b := by
  have op : opField v = 0b00 := by rw [← opcodeOf_decode, hd]; rfl
  simpa [decode, op] using hd

/-- A command is fixed by its opcode and, for BYTE, its byte. -/
theorem instr_ext (op : opcodeOf i = opcodeOf j) (arg : ∀ b c, i = .byte b → j = .byte c → b = c) : i = j := by
  cases i <;> cases j <;> simp [opcodeOf] at op arg ⊢
  exact arg

/-- A word decodes to a command exactly when it has the command's opcode and, for BYTE, its byte. -/
theorem decode_eq_iff : decode v = i ↔ opField v = opcodeOf i ∧ ∀ b, i = .byte b → argField v = b := by
  constructor
  · rintro rfl
    exact ⟨(opcodeOf_decode v).symm, fun _ => argField_of_decode_byte⟩
  · rintro ⟨op, arg⟩
    exact instr_ext ((opcodeOf_decode v).trans op) fun b c hd hi => (argField_of_decode_byte hd).symm.trans (arg c hi)

theorem opField_append (op : BitVec 2) (arg : Byte) : opField (op ++ arg) = op :=
  BitVec.extractLsb'_append_eq_left

theorem argField_append (op : BitVec 2) (arg : Byte) : argField (op ++ arg) = arg :=
  BitVec.extractLsb'_append_eq_right

theorem decode_encode (i : Instr) : decode (encode i) = i := by
  rw [decode_eq_iff, encode, opField_append, argField_append]
  refine ⟨rfl, fun b hi => ?_⟩
  rw [hi]
  rfl

/-- R72: `op` is bits 9:8. -/
theorem opField_toNat (v : CommandWord) : (opField v).toNat = v.toNat / 256 := by
  rw [opField, BitVec.extractLsb'_toNat, Nat.shiftRight_eq_div_pow]
  omega

/-- R72: `arg` is bits 7:0. -/
theorem argField_toNat (v : CommandWord) : (argField v).toNat = v.toNat % 256 := by
  rw [argField, BitVec.extractLsb'_toNat, Nat.shiftRight_zero]

/-- `decode_eq_iff` in the digits of the word's number. -/
theorem decode_eq_iff_toNat :
    decode v = i ↔ v.toNat / 256 = (opcodeOf i).toNat ∧ ∀ b, i = .byte b → v.toNat % 256 = b.toNat := by
  simp only [decode_eq_iff, BitVec.toNat_inj.symm, opField_toNat, argField_toNat]

/-- A number of more than 10 bits is no command word (R72: "There is no other format"). -/
theorem decodeTableWord_of_le {n : Nat} (nbits : Nat) (h : 1024 ≤ n) : decodeTableWord nbits n = none := by
  have wide : isCommandWord n = false := decide_eq_false (by omega)
  simp [decodeTableWord, decodeNumber, wide, Except.toOption]

theorem decodeTableWord_eq_some_iff {n : Nat} (nbits : Nat) :
    decodeTableWord nbits n = some i ↔
      n < 1024 ∧ n / 256 = (opcodeOf i).toNat ∧ ∀ b, i = .byte b → n % 256 = b.toNat := by
  by_cases h : n < 1024
  · obtain ⟨word, rfl⟩ : ∃ word : CommandWord, word.toNat = n := ⟨BitVec.ofNat 10 n, Nat.mod_eq_of_lt h⟩
    rw [decodeTableWord_toNat, Option.some_inj, decode_eq_iff_toNat, and_iff_right h]
  · simp [decodeTableWord_of_le nbits (Nat.le_of_not_lt h), h]

/-- Settles O2: a word's two fields determine the command, and a number below 1024 is a word with those two digits. -/
theorem decodeEncodeAgree : Obligations.DecodeEncodeAgree := by
  intro nbits i _
  exact ⟨(decodeTableWord_toNat nbits _).trans (congrArg some (decode_encode i)), fun _ =>
    decodeTableWord_eq_some_iff nbits⟩

/-! ### Transferred codes (R82) -/

variable {s t : State} {m : PortInputs} {rest : List PortInputs} {code : Code Config.codeWidth}

theorem transferredCode_eq_some_iff :
    transferredCode s = some code ↔ ∃ m rest, s.inputs = m :: rest ∧ m.rst = false ∧ m.codeReady = true ∧
      codeValid s.toCoreState = true ∧ s.pending = some code := by
  cases hi : s.inputs with
  | nil => simp [transferredCode, hi]
  | cons m rest => simp [transferredCode, hi, and_assoc]

theorem step_transfer (hi : s.inputs = m :: rest) (ht : transferredCode s = some code) :
    step s = .next (s.advance rest).transferEvent := by
  obtain ⟨m', rest', inputs, rst, ready, valid, _⟩ := transferredCode_eq_some_iff.mp ht
  obtain ⟨rfl, rfl⟩ : m = m' ∧ rest = rest' := List.cons.inj (hi.symm.trans inputs)
  rw [step_cons hi]
  simp [portEvent, rst, ready, valid]

/-- Nothing happens at a moment without RESET, transfer and acceptance, whatever the environment drives. -/
theorem step_quiet (hi : s.inputs = m :: rest) (hr : m.rst = false) (ht : transferredCode s = none)
    (ha : acceptedWord s = none) : step s = .next (s.advance rest) := by
  cases hv : codeValid s.toCoreState with
  | true =>
    obtain ⟨_, code, waits⟩ := codeValid_iff.mp hv
    have not_ready : m.codeReady = false := by simpa [transferredCode, hi, hr, hv, waits] using ht
    rw [step_cons hi]
    simp [portEvent, hr, hv, not_ready]
  | false =>
    cases hc : m.cmdValid with
    | true => rw [step_command hi hr hc hv, exec_of_not_accepted ha hi hr hc]
    | false =>
      rw [step_cons hi]
      simp [portEvent, hr, hv, hc]

/-- What a step does to the waiting code when it neither resets nor accepts a command. -/
theorem step_of_no_command (ha : acceptedWord s = none) (hr : ∀ m rest, s.inputs = m :: rest → m.rst = false) :
    ∃ t, step s = .next t ∧ t.pending = if (transferredCode s).isSome then none else s.pending := by
  cases ht : transferredCode s with
  | some code =>
    obtain ⟨m, rest, inputs, _⟩ := transferredCode_eq_some_iff.mp ht
    exact ⟨_, step_transfer inputs ht, rfl⟩
  | none =>
    cases hi : s.inputs with
    | nil => exact ⟨s, step_nil hi, rfl⟩
    | cons m rest => exact ⟨_, step_quiet hi (hr m rest hi) ht ha, rfl⟩

/-- Settles O29: without RESET and acceptance only a transfer is left to happen. -/
theorem onlyAcceptedCommandsAct : Obligations.OnlyAcceptedCommandsAct := by
  intro s ha hr
  obtain ⟨t, next, pending⟩ := step_of_no_command ha hr
  exact ⟨t, next, settled_of_no_command hr ha next, pending⟩

/-! ### Every emitted code is transferred once, in order (R82, 20_memory.md R65) -/

variable {w : Nat}

/-- An accepted command other than START emits just the code that waits after it, if one does. -/
theorem out_of_command {c d : CoreState w} (hr : cmdReady c = true) (not_start : i ≠ .start)
    (h : command i c = .next d) : d.out = c.out ++ d.pending.toList := by
  obtain ⟨_, pending⟩ := cmdReady_iff.mp hr
  cases i with
  | byte b =>
    obtain ⟨_, rfl⟩ | ⟨_, _, rfl⟩ | ⟨_, _, p, _, ⟨idx, _, rfl⟩ | ⟨_, rfl⟩⟩ | ⟨_, _, rfl⟩ := byteCommand_cases h
    · simp [pending]
    · simp [byteSeed, pending]
    · simp [pending]
    · simp [byteMiss]
    · simp [pending]
  | eos =>
    obtain ⟨_, rfl⟩ | ⟨_, _, rfl⟩ | ⟨_, _, p, _, rfl⟩ | ⟨_, _, rfl⟩ := eosCommand_cases h <;> simp [pending]
  | start => exact absurd rfl not_start
  | reserved =>
    obtain ⟨_, rfl⟩ | ⟨_, rfl⟩ := reservedCommand_cases h <;> simp [pending]

/-- A code is transferred only while it waits. -/
theorem transferredCode_toList_append (h : t.pending = if (transferredCode s).isSome then none else s.pending) :
    (transferredCode s).toList ++ t.pending.toList = s.pending.toList := by
  cases ht : transferredCode s with
  | none => simp [h, ht]
  | some code =>
    obtain ⟨_, _, _, _, _, _, waits⟩ := transferredCode_eq_some_iff.mp ht
    simp [h, ht, waits]

/-- No code is transferred at the moment that accepts a command. -/
theorem transferredCode_of_ready (hr : cmdReady s.toCoreState = true) : transferredCode s = none := by
  rw [Option.eq_none_iff_forall_ne_some]
  intro code ht
  obtain ⟨_, _, _, _, _, valid, _⟩ := transferredCode_eq_some_iff.mp ht
  simp [codeValid_of_ready hr] at valid

/-- One step transfers or keeps the code that waited, and leaves waiting what it emits. -/
theorem step_emits (hr : ∀ m rest, s.inputs = m :: rest → m.rst = false)
    (not_start : ∀ word, acceptedWord s = some word → decode word ≠ .start) (h : step s = .next t) :
    ∃ emitted, t.out = s.out ++ emitted ∧
      (transferredCode s).toList ++ t.pending.toList = s.pending.toList ++ emitted := by
  cases ha : acceptedWord s with
  | some word =>
    obtain ⟨_, _, _, _, _, ready, _⟩ := acceptedWord_eq_some_iff.mp ha
    obtain ⟨_, pending⟩ := cmdReady_iff.mp ready
    have executed := command_of_acceptedWord ha h
    rw [settled, transfer_of_ready ready] at executed
    exact ⟨_, out_of_command ready (not_start word ha) executed, by simp [transferredCode_of_ready ready, pending]⟩
  | none =>
    obtain ⟨t', next, pending⟩ := step_of_no_command ha hr
    obtain rfl : t = t' := Host.Outcome.next.inj (h.symm.trans next)
    have out : (settled t).out = (settled s).out := congrArg CoreState.out (settled_of_no_command hr ha h)
    simp only [settled, transfer_out] at out
    exact ⟨[], by simp [out], by simpa using transferredCode_toList_append pending⟩

theorem transferredCodes_succ {n : Nat} (h : step s = .next t) :
    transferredCodes (n + 1) s = (transferredCode s).toList ++ transferredCodes n t := by
  simp [transferredCodes, h, nextState]

/-- By induction on the number of steps, and from any state: a code waits only until the step that transfers it. -/
theorem transferred_in_order {n : Nat} (no_reset : noReset n s)
    (not_start : ∀ word ∈ acceptedWords n s, decode word ≠ .start) (h : steps n s = .next t) :
    ∃ emitted, t.out = s.out ++ emitted ∧
      transferredCodes n s ++ t.pending.toList = s.pending.toList ++ emitted := by
  induction n generalizing s with
  | zero =>
    cases h
    exact ⟨[], by simp, by simp [transferredCodes]⟩
  | succ n ih =>
    obtain ⟨u, stepped, others⟩ := steps_succ_eq_next_iff.mp h
    simp only [acceptedWords_succ stepped, List.mem_append, Option.mem_toList] at not_start
    obtain ⟨first, out_u, codes_u⟩ :=
      step_emits (fun _ _ => noReset_head no_reset) (fun word ha => not_start word (.inl ha)) stepped
    obtain ⟨later, out_t, codes_t⟩ :=
      ih (noReset_of_step no_reset stepped) (fun word ha => not_start word (.inr ha)) others
    refine ⟨first ++ later, by rw [out_t, out_u, List.append_assoc], ?_⟩
    calc transferredCodes (n + 1) s ++ t.pending.toList
        = (transferredCode s).toList ++ (transferredCodes n u ++ t.pending.toList) := by
          rw [transferredCodes_succ stepped, List.append_assoc]
      _ = (transferredCode s).toList ++ u.pending.toList ++ later := by rw [codes_t, List.append_assoc]
      _ = s.pending.toList ++ (first ++ later) := by rw [codes_u, List.append_assoc]

/-- Settles O31: the steps' codes put together; the invariant is not needed. -/
theorem emittedCodesAreTransferredOnceInOrder : Obligations.EmittedCodesAreTransferredOnceInOrder :=
  fun _ _ _ _ => transferred_in_order

/-! ### A waiting code is held (R82, R71) -/

theorem acceptedWord_of_not_ready (hr : cmdReady s.toCoreState = false) : acceptedWord s = none := by
  rw [Option.eq_none_iff_forall_ne_some]
  intro word ha
  obtain ⟨_, _, _, _, _, ready, _⟩ := acceptedWord_eq_some_iff.mp ha
  simp [hr] at ready

/-- What the code port and `cmd_ready` show while a code waits. -/
theorem outputs_of_pending (hp : s.phase ≠ .fault) (waits : s.pending = some code) :
    s.outputs.codeValid = true ∧ s.outputs.code = code ∧ s.outputs.cmdReady = false := by
  simp [State.outputs, codeValid, codeWires, cmdReady, isFault, hp, waits]

theorem transferredCode_of_pending (hp : s.phase ≠ .fault) (waits : s.pending = some code) (hi : s.inputs = m :: rest)
    (hr : m.rst = false) : transferredCode s = if m.codeReady then some code else none := by
  simp [transferredCode, hi, hr, codeValid, isFault, hp, waits]

/-- Settles O30: while the code waits `cmd_ready` is 0, so the step is the transfer or nothing. -/
theorem codeHeldUntilTransferred : Obligations.CodeHeldUntilTransferred := by
  intro s code m rest hp waits hi hr
  obtain ⟨valid, shown, not_ready⟩ := outputs_of_pending hp waits
  have ha : acceptedWord s = none := acceptedWord_of_not_ready not_ready
  have transferred := transferredCode_of_pending hp waits hi hr
  refine ⟨valid, shown, not_ready, ha, ?_⟩
  cases hc : m.codeReady with
  | true =>
    have ht : transferredCode s = some code := by simp [transferred, hc]
    exact ⟨_, step_transfer hi ht, fun _ => ⟨ht, rfl, by simp [State.outputs, codeValid]⟩, by simp⟩
  | false =>
    have ht : transferredCode s = none := by simp [transferred, hc]
    obtain ⟨still_valid, still_shown, _⟩ := outputs_of_pending (s := s.advance rest) hp waits
    exact ⟨_, step_quiet hi hr ht ha, by simp, fun _ => ⟨ht, rfl, still_valid, still_shown⟩⟩

/-! ### Commands that fault, and `arg` bits without effect (R76, R79) -/

/-- An accepted command that is not legal in the phase takes its fault and writes nothing else. -/
theorem exec_illegal (hr : cmdReady s.toCoreState = true) (hp : s.phase ∉ legalPhases i) :
    ∃ t, exec i s = .next t ∧ FaultTaken (illegalCause i) s t :=
  ⟨_, exec_of_command (command_illegal hr hp), ⟨rfl, rfl, rfl, rfl, rfl, rfl, rfl, rfl, rfl⟩⟩

theorem exec_reserved (hr : cmdReady s.toCoreState = true) :
    ∃ t, exec .reserved s = .next t ∧ FaultTaken .illegalOpcode s t :=
  exec_illegal hr (by simp [legalPhases])

theorem decode_eq_reserved_iff : decode v = .reserved ↔ opField v = 0b11 := by
  simp [decode_eq_iff, opcodeOf]

/-- Words of one opcode other than BYTE's are the same command (R79). -/
theorem decode_eq_decode (op : opField v = opField v') (not_byte : opField v ≠ 0b00) : decode v = decode v' := by
  refine instr_ext (by simp only [opcodeOf_decode, op]) fun b c hd _ => absurd ?_ not_byte
  rw [← opcodeOf_decode, hd, opcodeOf]

/-- Settles O4: the reserved opcode is legal in no phase, and each other command faults by its phase. -/
theorem reservedIllegalAndIgnoredEncodings : Obligations.ReservedIllegalAndIgnoredEncodings := by
  refine ⟨fun v s op hr => ?_, fun v s op hr hp => ?_, fun v v' s op not_byte => ?_⟩
  · rw [decode_eq_reserved_iff.mpr op]
    exact exec_reserved hr
  · have defined : decode v ≠ .reserved := fun hd => op (decode_eq_reserved_iff.mp hd)
    have cause : illegalCause (decode v) = .illegalPhase := if_neg defined
    exact cause ▸ exec_illegal hr hp
  · rw [decode_eq_decode op not_byte]

/-! ### The opcode map (R73 to R77) -/

/-- Under the mask 0x300 of every row, what is left of a word is its `op`. -/
theorem and_mask (v : CommandWord) : v &&& 0x300 = opField v ++ 0#8 := by
  have fields : opField v ++ argField v = v := BitVec.extractLsb'_append_extractLsb'
  calc v &&& 0x300
      = (opField v ++ argField v) &&& (BitVec.allOnes 2 ++ 0#8) := by rw [fields]; rfl
    _ = (opField v &&& BitVec.allOnes 2) ++ (argField v &&& 0#8) := BitVec.and_append
    _ = opField v ++ 0#8 := by rw [BitVec.and_allOnes, BitVec.and_zero]

theorem opField_and_mask (v : CommandWord) : opField (v &&& 0x300) = opField v := by
  rw [and_mask, opField_append]

/-- Settles O21: under the mask the word shows its opcode, which is the reserved one. -/
theorem reservedOpcodeFaults : Obligations.ReservedOpcodeFaults := by
  intro v hv
  have op : opField v = 0b11 := by
    rw [← opField_and_mask, hv]
    rfl
  have hd := decode_eq_reserved_iff.mpr op
  refine ⟨hd, fun s hr => ?_⟩
  rw [hd]
  exact exec_reserved hr

variable {r r' : OpcodeRow}

theorem mask_of_mem (hr : r ∈ opcodeTable) : r.mask = 0x300 ∧ r.pattern = opField r.pattern ++ 0#8 := by
  revert r
  decide

/-- A word selects the rows of its opcode. -/
theorem selects_iff (hr : r ∈ opcodeTable) : r.selects v = true ↔ opField v = opField r.pattern := by
  obtain ⟨mask, pattern⟩ := mask_of_mem hr
  rw [OpcodeRow.selects, mask, beq_iff_eq]
  constructor
  · intro h
    rw [← h, opField_and_mask]
  · intro h
    rw [and_mask, h, ← pattern]

/-- Each opcode has one row. -/
theorem row_unique (hr : r ∈ opcodeTable) (hr' : r' ∈ opcodeTable) (op : opField r'.pattern = opField r.pattern) :
    r' = r := by
  have unique : ∀ r ∈ opcodeTable, ∀ r' ∈ opcodeTable, opField r'.pattern = opField r.pattern → r' = r := by decide
  exact unique r hr r' hr' op

/-- Each command has a row, with its opcode and its mnemonic. -/
theorem exists_row (i : Instr) :
    ∃ r ∈ opcodeTable, opField r.pattern = opcodeOf i ∧ r.mnemonic = mnemonicOf i := by
  cases i with
  | byte b => exact ⟨⟨"BYTE", 0x000, 0x300⟩, by simp [opcodeTable], rfl, rfl⟩
  | eos => exact ⟨⟨"EOS", 0x100, 0x300⟩, by simp [opcodeTable], rfl, rfl⟩
  | start => exact ⟨⟨"START", 0x200, 0x300⟩, by simp [opcodeTable], rfl, rfl⟩
  | reserved => exact ⟨⟨"RESERVED", 0x300, 0x300⟩, by simp [opcodeTable], rfl, rfl⟩

/-- Settles O3: the row of the decoded command is selected, and a row is fixed by its opcode. -/
theorem everyWordSelectsOneRow : Obligations.EveryWordSelectsOneRow := by
  intro v
  obtain ⟨r, hr, op, mnemonic⟩ := exists_row (decode v)
  rw [opcodeOf_decode] at op
  refine ⟨r, hr, (selects_iff hr).mpr op.symm, mnemonic, fun r' hr' selected => ?_⟩
  exact row_unique hr hr' (((selects_iff hr').mp selected).symm.trans op.symm)

/-! ### The line COMPRESS (R84) -/

theorem flatMap_events_byte (vs : List Nat) :
    (vs.map Line.byte).flatMap Line.events = vs.map fun v => some (.byte (BitVec.ofNat 8 v)) := by
  induction vs with
  | nil => rfl
  | cons v vs ih => simp [Line.events, ih]

/-- Settles O54: both sides have the same events. -/
theorem compressLineExpands : Obligations.CompressLineExpands := by
  intro vs
  have events : Line.events (.compress vs) = ([.start] ++ vs.map .byte ++ [.eos] : List Line).flatMap Line.events := by
    simp [Line.events, compressCommands, openRun, flatMap_events_byte]
  rw [Line.program, Line.program, ← events, List.flatMap_singleton]

end Sys2Proof.Machine
end

section
/-! PROOFS. Table and search (40_table_and_search.md): literal codes and entries (R90, R94), the search as least match and
as content lookup (R91, R95), insertion (R96, R97), and expansions, with the longest match at a miss (R101, R102). -/

namespace Sys2Proof.Machine

open Sys2Proof.Safety

variable {w : Nat} {s : CoreState w} {p : Code w} {c : Byte} {a b : Nat} {e : PairEntry w}

/-! ### Expansions (R101) -/

/-- Induction over the populated codes along their prefixes: a learnt code rests on the smaller code that its entry
extends (44_run_contract.md R145). -/
theorem populated_induction (inv : RunInv s) {motive : ∀ a, a < s.nextCode.toNat → Prop}
    (literal : ∀ a high, a < 256 → motive a high)
    (pair : ∀ a high e, memRead s a = some (.pair e) → ∀ smaller : e.prefixCode.toNat < a,
      motive e.prefixCode.toNat (smaller.trans high) → motive a high)
    (a : Nat) (populated : a < s.nextCode.toNat) : motive a populated := by
  induction a using Nat.strong_induction_on with
  | _ a ih =>
    by_cases low : a < 256
    · exact literal a populated low
    · obtain ⟨e, read, smaller⟩ := inv.entries_below a (Nat.le_of_not_lt low) populated
      exact pair a populated e read smaller (ih _ smaller (smaller.trans populated))

theorem memRead_literal_of_inv (inv : RunInv s) (h : a < 256) : memRead s a = some (.literal (BitVec.ofNat 8 a)) := by
  rw [memRead_literal s h, if_pos inv.literals]

theorem expandChain_literal {d : Byte} (read : memRead s a = some (.literal d)) (n : Nat) :
    expandChain s (n + 1) a = some [d] := by
  simp [expandChain, read]

theorem expandChain_pair (read : memRead s a = some (.pair e)) (n : Nat) :
    expandChain s (n + 1) a = (expandChain s n e.prefixCode.toNat).map (· ++ [e.nextByte]) := by
  simp [expandChain, read]

/-- Any bound above a populated code is long enough for its chain. -/
theorem expandChain_eq_expand (inv : RunInv s) (populated : a < s.nextCode.toNat) :
    ∀ n, a < n → expandChain s n a = expand s a := by
  intro n bound
  induction a, populated using populated_induction inv generalizing n with
  | literal a _ low =>
    obtain ⟨n, rfl⟩ := Nat.exists_eq_add_one_of_ne_zero (Nat.ne_zero_of_lt bound)
    have read := memRead_literal_of_inv inv low
    rw [expand, expandChain_literal read, expandChain_literal read]
  | pair a _ e read smaller ih =>
    obtain ⟨n, rfl⟩ := Nat.exists_eq_add_one_of_ne_zero (Nat.ne_zero_of_lt bound)
    rw [expand, expandChain_pair read, expandChain_pair read, ih _ (by omega), ih _ smaller]

theorem expand_literal (inv : RunInv s) (h : a < 256) : expand s a = some [BitVec.ofNat 8 a] :=
  expandChain_literal (memRead_literal_of_inv inv h) a

/-- A learnt code expands to its prefix's expansion followed by its byte. -/
theorem expand_pair (inv : RunInv s) (populated : a < s.nextCode.toNat) (read : memRead s a = some (.pair e))
    (smaller : e.prefixCode.toNat < a) :
    expand s a = (expand s e.prefixCode.toNat).map (· ++ [e.nextByte]) := by
  rw [expand, expandChain_pair read, expandChain_eq_expand inv (smaller.trans populated) a smaller]

theorem expand_exists (inv : RunInv s) (populated : a < s.nextCode.toNat) : ∃ x, expand s a = some x ∧ x ≠ [] := by
  induction a, populated using populated_induction inv with
  | literal a _ low => exact ⟨_, expand_literal inv low, by simp⟩
  | pair a high e read smaller ih =>
    obtain ⟨x, expands, _⟩ := ih
    exact ⟨x ++ [e.nextByte], by rw [expand_pair inv high read smaller, expands, Option.map_some], by simp⟩

/-- What a populated code holds, and its expansion with it: a literal's byte, or a learnt code's non-empty prefix string
and byte. -/
theorem populated_cases (inv : RunInv s) (populated : a < s.nextCode.toNat) :
    (a < 256 ∧ expand s a = some [BitVec.ofNat 8 a]) ∨
    ∃ e x, 256 ≤ a ∧ memRead s a = some (.pair e) ∧ e.prefixCode.toNat < a ∧
      expand s e.prefixCode.toNat = some x ∧ x ≠ [] ∧ expand s a = some (x ++ [e.nextByte]) := by
  by_cases low : a < 256
  · exact .inl ⟨low, expand_literal inv low⟩
  · rw [Nat.not_lt] at low
    obtain ⟨e, read, smaller⟩ := inv.entries_below a low populated
    obtain ⟨x, expands, nonempty⟩ := expand_exists inv (smaller.trans populated)
    exact .inr ⟨e, x, low, read, smaller, expands, nonempty, by
      rw [expand_pair inv populated read smaller, expands, Option.map_some]⟩

theorem pairEntry_ext {e f : PairEntry w} (prefixes : e.prefixCode = f.prefixCode) (bytes : e.nextByte = f.nextByte) :
    e = f := by
  cases e
  cases f
  exact congr (congrArg PairEntry.mk prefixes) bytes

/-- A pair stands at one populated code only (44_run_contract.md R146). -/
theorem eq_of_memRead_eq (inv : RunInv s) (low_a : 256 ≤ a) (high_a : a < s.nextCode.toNat) (low_b : 256 ≤ b)
    (high_b : b < s.nextCode.toNat) (same : memRead s a = memRead s b) : a = b := by
  rcases Nat.lt_trichotomy a b with h | h | h
  · exact absurd same (inv.entries_unique a b low_a h high_b)
  · exact h
  · exact absurd same.symm (inv.entries_unique b a low_b h high_a)

/-- Distinct populated codes expand to distinct strings: equal strings have equal last bytes and equal strings before
them, so equal entries. -/
theorem expand_injective (inv : RunInv s) (high_a : a < s.nextCode.toNat) (high_b : b < s.nextCode.toNat)
    (same : expand s a = expand s b) : a = b := by
  induction a using Nat.strong_induction_on generalizing b with
  | _ a ih =>
    obtain ⟨literal_a, expand_a⟩ | ⟨e, x, low_a, read_a, smaller_a, expand_x, x_ne, expand_a⟩ :=
      populated_cases inv high_a <;>
    obtain ⟨literal_b, expand_b⟩ | ⟨f, y, low_b, read_b, smaller_b, expand_y, y_ne, expand_b⟩ :=
      populated_cases inv high_b <;>
    rw [expand_a, expand_b, Option.some_inj] at same
    · have bytes := congrArg BitVec.toNat (List.singleton_inj.mp same)
      rwa [BitVec.toNat_ofNat, BitVec.toNat_ofNat, Nat.mod_eq_of_lt literal_a, Nat.mod_eq_of_lt literal_b] at bytes
    · exact absurd (List.append_eq_singleton_iff.mp same.symm) (by simp [y_ne])
    · exact absurd (List.append_eq_singleton_iff.mp same) (by simp [x_ne])
    · obtain ⟨rfl, bytes⟩ := List.append_inj' same rfl
      have prefixes : e.prefixCode = f.prefixCode := BitVec.eq_of_toNat_eq <|
        ih _ smaller_a (smaller_a.trans high_a) (smaller_b.trans high_b) (expand_x.trans expand_y.symm)
      obtain rfl : e = f := pairEntry_ext prefixes (List.singleton_inj.mp bytes)
      exact eq_of_memRead_eq inv low_a high_a low_b high_b (read_a.trans read_b.symm)

/-! ### The longest match (R102) -/

/-- Some populated code holds `Pair(p, c)` when a populated code's string begins with the string of `p` followed by `c`:
the pair is met on the chain of that code's prefixes. -/
theorem memRead_of_expand_extends (inv : RunInv s) {x y : List Byte} (high_p : p.toNat < s.nextCode.toNat)
    (expand_p : expand s p.toNat = some x) (high_a : a < s.nextCode.toNat)
    (expand_a : expand s a = some (x ++ c :: y)) :
    ∃ k, 256 ≤ k ∧ k < s.nextCode.toNat ∧ memRead s k = some (.pair ⟨p, c⟩) := by
  have x_ne : x ≠ [] := by
    obtain ⟨x', expand_x', ne⟩ := expand_exists inv high_p
    rwa [Option.some_inj.mp (expand_p.symm.trans expand_x')]
  induction a using Nat.strong_induction_on generalizing y with
  | _ a ih =>
    obtain ⟨_, single⟩ | ⟨e, z, low, read, smaller, expand_z, _, extended⟩ := populated_cases inv high_a
    · rw [expand_a, Option.some_inj, List.append_eq_singleton_iff] at single
      simp [x_ne] at single
    · have strings : x ++ c :: y = z ++ [e.nextByte] := Option.some_inj.mp (expand_a.symm.trans extended)
      obtain rfl | ⟨y', d, rfl⟩ := List.eq_nil_or_concat' y
      · obtain ⟨rfl, byte⟩ := List.append_inj' strings rfl
        have prefixes : p = e.prefixCode := BitVec.eq_of_toNat_eq <|
          expand_injective inv high_p (smaller.trans high_a) (expand_p.trans expand_z.symm)
        rw [List.singleton_inj] at byte
        exact ⟨a, low, high_a, by rw [read, prefixes, byte]⟩
      · have strings' : (x ++ c :: y') ++ [d] = z ++ [e.nextByte] := by simpa using strings
        obtain ⟨rfl, _⟩ := List.append_inj' strings' rfl
        exact ih _ smaller (smaller.trans high_a) expand_z

/-- Settles O42: a string that extends the prefix's by `c` would rest on an entry that the search finds. -/
theorem matchIsLongestAtAMiss : Obligations.MatchIsLongestAtAMiss := by
  intro w _ s p c _ inv hp missed
  have high_p := inv.prefix_populated p hp
  obtain ⟨x, expand_p, _⟩ := expand_exists inv high_p
  refine ⟨x, expand_p, fun a y high_a expand_a => ?_⟩
  obtain ⟨k, low, high, read⟩ := memRead_of_expand_extends inv high_p expand_p high_a expand_a
  exact search_eq_none_iff.mp missed k low high read

/-! ### Literal codes (R90) -/

theorem literalCode_toNat (hw : 8 ≤ w) (b : Byte) : (literalCode w b).toNat = b.toNat := by
  have fits : b.toNat < 2 ^ w := b.isLt.trans_le (Nat.pow_le_pow_right (by omega) hw)
  rw [literalCode, BitVec.toNat_setWidth, Nat.mod_eq_of_lt fits]

/-- Settles O5: a byte is below 256, where the literal region is the identity. -/
theorem literalCodeIsTheByte : Obligations.LiteralCodeIsTheByte := by
  intro w hw b
  refine ⟨literalCode_toNat hw b, fun s _ inv => ?_⟩
  rw [literalCode_toNat hw]
  refine ⟨b.isLt.trans_le inv.next_code_low, ?_⟩
  rw [memRead_literal_of_inv inv b.isLt, BitVec.ofNat_toNat, BitVec.setWidth_eq]

/-! ### Entries and their storage words (R94) -/

theorem toWord_inj {e f : PairEntry w} : e.toWord = f.toWord ↔ e = f := by
  refine ⟨fun h => ?_, congrArg _⟩
  rw [← ofWord_toWord e, h, ofWord_toWord]

/-- Settles O6: the storage word is read back to the entry it was packed from. -/
theorem entryEqualityIsWordEquality : Obligations.EntryEqualityIsWordEquality := by
  intro w p₁ p₂ c₁ c₂ b
  refine ⟨by simp, ?_, by simp⟩
  rw [toWord_inj, Entry.pair.injEq]

/-! ### The search (R91, R95) -/

/-- A code is its own number once it is below `next_code`. -/
theorem toNat_ofNat_of_lt (high : s.nextCode.toNat ≤ Config.tableSize w) (h : a < s.nextCode.toNat) :
    (BitVec.ofNat w a).toNat = a := by
  rw [BitVec.toNat_ofNat]
  exact Nat.mod_eq_of_lt (h.trans_le high)

/-- The search's hits, as `search_eq_none_iff` says its misses. -/
theorem search_some {idx : Code w} (high : s.nextCode.toNat ≤ Config.tableSize w) (h : search s p c = some idx) :
    256 ≤ idx.toNat ∧ idx.toNat < s.nextCode.toNat ∧ memRead s idx.toNat = some (.pair ⟨p, c⟩) ∧
      ∀ a, 256 ≤ a → a < idx.toNat → memRead s a ≠ some (.pair ⟨p, c⟩) := by
  obtain ⟨j, scanned, rfl⟩ := Option.map_eq_some_iff.mp h
  obtain ⟨low, below, hit, least⟩ := scan_some scanned
  have below_next : j < s.nextCode.toNat := by
    simp only [Config.alphabetSize] at low below
    omega
  rw [toNat_ofNat_of_lt high below_next]
  exact ⟨low, below_next, hit, least⟩

theorem search_eq_some_iff {idx : Code w} (high : s.nextCode.toNat ≤ Config.tableSize w) :
    search s p c = some idx ↔
      256 ≤ idx.toNat ∧ idx.toNat < s.nextCode.toNat ∧ memRead s idx.toNat = some (.pair ⟨p, c⟩) ∧
        ∀ a, 256 ≤ a → a < idx.toNat → memRead s a ≠ some (.pair ⟨p, c⟩) := by
  refine ⟨search_some high, fun ⟨low, below, hit, least⟩ => ?_⟩
  cases h : search s p c with
  | none => exact absurd hit (search_eq_none_iff.mp h _ low below)
  | some j =>
    obtain ⟨low_j, _, hit_j, least_j⟩ := search_some high h
    have not_before : ¬ j.toNat < idx.toNat := fun lt => least _ low_j lt hit_j
    have not_after : ¬ idx.toNat < j.toNat := fun lt => least_j _ low lt hit
    rw [BitVec.eq_of_toNat_eq (show j.toNat = idx.toNat by omega)]

/-- Settles O9: the least match is unique, so the search answers it whenever there is one. -/
theorem searchFindsLeastMatch : Obligations.SearchFindsLeastMatch :=
  fun _ _ _ _ _ high => ⟨fun _ => search_eq_some_iff high, search_eq_none_iff⟩

/-- In a canonical RAM the populated entries are those listed. -/
theorem memRead_eq_pair_iff (wf : Memory.wf s.table) (low : 256 ≤ a) (high : a < s.nextCode.toNat) :
    memRead s a = some (.pair e) ↔ (a, e) ∈ s.table := by
  rw [memRead_pair s low high, ← read_eq_some_iff wf.1]
  simp

/-- What the lookup of all listed entries at once compares: the entry is populated and holds the pair. -/
def holdsBelow (n : Nat) (e : PairEntry w) (x : Nat × PairEntry w) : Bool := decide (x.1 < n) && decide (x.2 = e)

theorem holdsBelow_iff {n : Nat} {x : Nat × PairEntry w} : holdsBelow n e x = true ↔ x.1 < n ∧ x.2 = e := by
  simp [holdsBelow]

/-- In a canonical RAM the first listed entry that matches has the least code. -/
theorem find?_some_least {m : Memory w} {n k : Nat} {f : PairEntry w} (rising : m.Pairwise fun x y => x.1 < y.1)
    (h : m.find? (holdsBelow n e) = some (k, f)) :
    k < n ∧ f = e ∧ (k, f) ∈ m ∧ ∀ a, a < k → (a, e) ∉ m := by
  obtain ⟨holds, before, after, rfl, earlier⟩ := List.find?_eq_some_iff_append.mp h
  obtain ⟨below, entry⟩ := holdsBelow_iff.mp holds
  refine ⟨below, entry, by simp, fun a lt listed => ?_⟩
  obtain listed | listed := List.mem_append.mp listed
  · have misses := earlier _ listed
    simp [holdsBelow, show a < n from lt.trans below] at misses
  · obtain ⟨first, _⟩ := List.pairwise_cons.mp (List.pairwise_append.mp rising).2.1
    obtain same | later := List.mem_cons.mp listed
    · exact lt.ne (congrArg Prod.fst same)
    · exact lt.not_gt (first _ later)

theorem search_eq_find? (high : s.nextCode.toNat ≤ Config.tableSize w) (wf : Memory.wf s.table) :
    search s p c = (s.table.find? (holdsBelow s.nextCode.toNat ⟨p, c⟩)).map fun x => BitVec.ofNat w x.1 := by
  cases h : s.table.find? (holdsBelow s.nextCode.toNat ⟨p, c⟩) with
  | none =>
    refine search_eq_none_iff.mpr fun a low below hit => ?_
    exact List.find?_eq_none.mp h _ ((memRead_eq_pair_iff wf low below).mp hit) (holdsBelow_iff.mpr ⟨below, rfl⟩)
  | some x =>
    obtain ⟨k, f⟩ := x
    obtain ⟨below, rfl, listed, least⟩ := find?_some_least wf.1 h
    have low : 256 ≤ k := (wf.2 _ listed).1
    rw [Option.map_some, search_eq_some_iff high, toNat_ofNat_of_lt high below]
    exact ⟨low, below, (memRead_eq_pair_iff wf low below).mpr listed, fun a low_a lt hit =>
      least a lt ((memRead_eq_pair_iff wf low_a (lt.trans below)).mp hit)⟩

/-- Settles O10: the entries are listed by rising code, so the first listed match is the least. -/
theorem searchIsContentLookup : Obligations.SearchIsContentLookup :=
  fun _ _ _ _ _ high wf => search_eq_find? high wf

/-! ### Insertion (R96, R97) -/

theorem full_insert_iff (room : s.nextCode.toNat < Config.tableSize w) :
    full (insert p c s) = true ↔ s.nextCode.toNat = Config.tableSize w - 1 := by
  rw [full_iff, nextCode_insert room]
  omega

theorem insert_frame (room : s.nextCode.toNat < Config.tableSize w) :
    { insert p c s with table := s.table, nextCode := s.nextCode } = s := by
  rw [insert_of_lt room]
  rfl

/-- Settles O11: with room the counter, the entry and what is left unchanged, each by its lemma; without room, nothing. -/
theorem insertLearnsUntilSaturated : Obligations.InsertLearnsUntilSaturated :=
  fun _ _ _ _ _ low =>
    ⟨fun room => ⟨nextCode_insert room, memRead_insert_same low room, fun _ other => memRead_insert_other room other,
      full_insert_iff room, insert_frame room⟩,
    fun saturated => insert_saturated saturated.ge _ _⟩

end Sys2Proof.Machine
end

section
/-! PROOFS. START (41_start.md): the state it begins a run with (R110), what START, EOS and the reserved opcode leave
unchanged, the commands out of their phase (R112), and that no run depends on what ran before it (R111). -/

namespace Sys2Proof.Machine

open Sys2Proof.Safety

variable {w : Nat} {s t s' : CoreState w} {i : Instr}

/-! ### The state that a run begins with (R110) -/

theorem cmdReady_of_canStart (h : canStart s) : cmdReady s = true := by
  obtain ⟨phase, pending⟩ := h
  exact cmdReady_iff.mpr ⟨by obtain h | h := phase <;> simp [h], pending⟩

theorem command_start (h : canStart s) : command .start s = .next (startRun s) :=
  startCommand_legal (cmdReady_of_canStart h) h.1

/-- START makes the reads those of the literals alone: `next_code` hides what earlier runs left in the RAM. -/
theorem memRead_startRun (s : CoreState w) (a : Nat) :
    memRead (startRun s) a = if a < 256 then some (.literal (BitVec.ofNat 8 a)) else none := by
  split
  · next literal => rw [memRead_literal _ literal, startRun_literalsPresent, if_pos rfl]
  · next above =>
    have next : (startRun s).nextCode.toNat ≤ 256 := by
      rw [startRun_nextCode, BitVec.toNat_ofNat]
      exact Nat.mod_le _ _
    exact memRead_unpopulated _ (by omega) (by omega)

theorem full_startRun_iff (hw : 8 ≤ w) (s : CoreState w) : full (startRun s) = true ↔ w = 8 := by
  rw [full_iff, nextCode_startRun hw, Config.tableSize, show 256 = 2 ^ 8 from rfl, Nat.pow_right_inj (by omega),
    eq_comm]

/-- Settles O13: the next state is `startRun`, whose reads and flags are read off. -/
theorem startBeginsARun : Obligations.StartBeginsARun := by
  refine ⟨fun s hr hp => ?_, fun w hw s h => ⟨startRun s, command_start h, rfl, full_startRun_iff hw s⟩⟩
  have started : exec .start s = .next { s with toCoreState := startRun s.toCoreState } :=
    exec_of_command (startCommand_legal hr hp)
  refine ⟨started, fun t h => ?_⟩
  obtain rfl := Host.Outcome.next.inj (started.symm.trans h)
  refine ⟨nextCode_startRun (by decide) _, fun a literal => ?_, fun a above => ?_, rfl, rfl, rfl⟩
  · rw [memRead_startRun, if_pos literal]
  · rw [memRead_startRun, if_neg (Nat.not_lt.mpr above)]

/-! ### Commands out of their phase (R112, R120, R132) -/

/-- Settles O22: a command out of its phase is one that is not legal there, and FAULT accepts none. -/
theorem outOfPhaseCommandsFault : Obligations.OutOfPhaseCommandsFault := by
  refine fun s => ⟨fun hr => ⟨fun running => ?_, fun stopped => ?_⟩, fun hp => exec_of_not_ready (cmdReady_of_fault hp)⟩
  · exact exec_illegal (i := .start) hr (by obtain hp | hp := running <;> simp [legalPhases, hp])
  · have no_input : s.phase ∉ [Phase.ready, Phase.run] := by obtain hp | hp := stopped <;> simp [hp]
    exact ⟨fun b => exec_illegal (i := .byte b) hr no_input, exec_illegal (i := .eos) hr no_input⟩

/-! ### What EOS, START and the reserved opcode leave unchanged -/

/-- What a command other than BYTE can do: nothing, a fault, or the end or the beginning of a run. -/
theorem command_cases_of_not_byte (not_byte : i = .eos ∨ i = .start ∨ i = .reserved) (h : command i s = .next t) :
    t = s ∨ t = raiseFault (illegalCause i) s ∨ (i = .eos ∧ (t = eosEmpty s ∨ ∃ p, t = eosFlush s p)) ∨
      (i = .start ∧ t = startRun s) := by
  obtain rfl | rfl | rfl := not_byte
  · obtain ⟨_, same⟩ | ⟨_, _, empty⟩ | ⟨_, _, p, _, flush⟩ | ⟨_, _, fault⟩ := eosCommand_cases h
    · exact .inl same
    · exact .inr (.inr (.inl ⟨rfl, .inl empty⟩))
    · exact .inr (.inr (.inl ⟨rfl, .inr ⟨p, flush⟩⟩))
    · exact .inr (.inl fault)
  · obtain ⟨_, same⟩ | ⟨_, _, start⟩ | ⟨_, _, fault⟩ := startCommand_cases h
    · exact .inl same
    · exact .inr (.inr (.inr ⟨rfl, start⟩))
    · exact .inr (.inl fault)
  · obtain ⟨_, same⟩ | ⟨_, fault⟩ := reservedCommand_cases h
    · exact .inl same
    · exact .inr (.inl fault)

/-- Settles O34: none of the updates these commands can do writes the table RAM, and each leaves its registers. -/
theorem eosStartReservedFrame : Obligations.EosStartReservedFrame := by
  intro i s t not_byte h
  obtain ⟨executed, inputs, freeIndex⟩ := onCore_next ((exec_eq_onCore i s).symm.trans h)
  obtain core | core | ⟨rfl, core | ⟨p, core⟩⟩ | ⟨rfl, core⟩ := command_cases_of_not_byte not_byte executed <;>
    simp [core, inputs, freeIndex]

/-! ### Two runs over the same commands (R111) -/

/-- The cores cannot be told apart by the commands of a run: they agree on everything a command reads.
`current_prefix_code` is compared in RUN only and the RAM through its reads, for START leaves the old ones in place. -/
structure SameRun (s t : CoreState w) : Prop where
  phase : t.phase = s.phase
  next_code : t.nextCode = s.nextCode
  run_prefix : s.phase = .run → t.currentPrefixCode = s.currentPrefixCode
  out : t.out = s.out
  pending : t.pending = s.pending
  reads : ∀ a, memRead t a = memRead s a

/-- The search looks at `next_code` and at the reads below it, and at nothing else. -/
theorem search_eq_of_memRead_eq (next_code : t.nextCode = s.nextCode) (reads : ∀ a, memRead t a = memRead s a)
    (p : Code w) (c : Byte) : search t p c = search s p c := by
  rw [search, search, next_code, scan_congr (funext reads)]

/-- An insertion changes the read at `next_code` and no other, and below 256 not even that. -/
theorem memRead_insert (room : s.nextCode.toNat < Config.tableSize w) (p : Code w) (c : Byte) (a : Nat) :
    memRead (insert p c s) a = if 256 ≤ a ∧ a = s.nextCode.toNat then some (.pair ⟨p, c⟩) else memRead s a := by
  split
  · next h =>
    obtain ⟨low, rfl⟩ := h
    exact memRead_insert_same low room
  · next h =>
    by_cases other : a = s.nextCode.toNat
    · rw [memRead_literal _ (by omega), memRead_literal _ (by omega), insert_literalsPresent]
    · exact memRead_insert_other room other

namespace SameRun

variable (same : SameRun s t)

include same

theorem cmdReady : cmdReady t = cmdReady s := by
  simp [Machine.cmdReady, isFault, same.phase, same.pending]

theorem search (p : Code w) (c : Byte) : search t p c = search s p c :=
  search_eq_of_memRead_eq same.next_code same.reads p c

theorem transfer : SameRun (transfer s) (transfer t) :=
  { same with pending := rfl }

theorem raiseFault (cause : FaultCause) : SameRun (raiseFault cause s) (raiseFault cause t) :=
  { same with phase := rfl, run_prefix := fun _ => rfl }

theorem setPrefix (v : Code w) : SameRun (setPrefix v s) (setPrefix v t) :=
  { same with phase := rfl, run_prefix := fun _ => rfl }

theorem emit (v : Code w) : SameRun (emit v s) (emit v t) :=
  { same with out := by simp [same.out], pending := rfl }

theorem eosEmpty : SameRun (eosEmpty s) (eosEmpty t) :=
  { same with phase := rfl, run_prefix := nofun }

theorem eosFlush (p : Code w) : SameRun (eosFlush s p) (eosFlush t p) :=
  { same.emit p with phase := rfl, run_prefix := nofun }

theorem insert (p : Code w) (c : Byte) : SameRun (insert p c s) (insert p c t) := by
  by_cases room : s.nextCode.toNat < Config.tableSize w
  · have room' : t.nextCode.toNat < Config.tableSize w := by rwa [same.next_code]
    refine ⟨by simp [same.phase], ?_, by simpa using same.run_prefix, by simp [same.out], by simp [same.pending],
      fun a => ?_⟩
    · rw [insert_of_lt room, insert_of_lt room', same.next_code]
    · rw [memRead_insert room, memRead_insert room', same.next_code, same.reads]
  · rw [insert_saturated (Nat.le_of_not_lt room), insert_saturated (by rw [same.next_code]; omega)]
    exact same

theorem byteMiss (p : Code w) (c : Byte) : SameRun (byteMiss p c s) (byteMiss p c t) :=
  ((same.emit p).insert p c).setPrefix _

end SameRun

/-- START makes any two cores agree, whatever they did before. -/
theorem startRun_sameRun (pending : t.pending = s.pending) : SameRun (startRun s) (startRun t) where
  phase := rfl
  next_code := rfl
  run_prefix := nofun
  out := rfl
  pending := pending
  reads a := by rw [memRead_startRun, memRead_startRun]

theorem command_sameRun_of_illegal (same : SameRun s t) (hr : cmdReady s = true) (hp : s.phase ∉ legalPhases i) :
    ∃ t', command i t = .next t' ∧ SameRun (raiseFault (illegalCause i) s) t' :=
  ⟨_, command_illegal (same.cmdReady.trans hr) (by rwa [same.phase]), same.raiseFault _⟩

theorem byteCommand_sameRun {b : Byte} (same : SameRun s t) (hr : cmdReady s = true) (h : byteCommand b s = .next s') :
    ∃ t', byteCommand b t = .next t' ∧ SameRun s' t' := by
  have hr' : cmdReady t = true := same.cmdReady.trans hr
  obtain ⟨not_ready, _⟩ | ⟨_, hp, rfl⟩ | ⟨_, hp, p, hc, result⟩ | ⟨_, hp, rfl⟩ := byteCommand_cases h
  · simp [hr] at not_ready
  · exact ⟨_, byteCommand_ready hr' (same.phase.trans hp) b, same.setPrefix _⟩
  · have hp' := same.phase.trans hp
    have hc' := (same.run_prefix hp).trans hc
    obtain ⟨idx, hit, rfl⟩ | ⟨missed, rfl⟩ := result
    · exact ⟨_, byteCommand_hit hr' hp' hc' ((same.search p b).trans hit), same.setPrefix idx⟩
    · exact ⟨_, byteCommand_miss hr' hp' hc' ((same.search p b).trans missed), same.byteMiss p b⟩
  · exact command_sameRun_of_illegal (i := .byte b) same hr (by obtain hp | hp := hp <;> simp [legalPhases, hp])

theorem eosCommand_sameRun (same : SameRun s t) (hr : cmdReady s = true) (h : eosCommand s = .next s') :
    ∃ t', eosCommand t = .next t' ∧ SameRun s' t' := by
  have hr' : cmdReady t = true := same.cmdReady.trans hr
  obtain ⟨not_ready, _⟩ | ⟨_, hp, rfl⟩ | ⟨_, hp, p, hc, rfl⟩ | ⟨_, hp, rfl⟩ := eosCommand_cases h
  · simp [hr] at not_ready
  · exact ⟨_, eosCommand_ready hr' (same.phase.trans hp), same.eosEmpty⟩
  · exact ⟨_, eosCommand_run hr' (same.phase.trans hp) ((same.run_prefix hp).trans hc), same.eosFlush p⟩
  · exact command_sameRun_of_illegal (i := .eos) same hr (by obtain hp | hp := hp <;> simp [legalPhases, hp])

theorem startCommand_sameRun (same : SameRun s t) (hr : cmdReady s = true) (h : startCommand s = .next s') :
    ∃ t', startCommand t = .next t' ∧ SameRun s' t' := by
  obtain ⟨not_ready, _⟩ | ⟨_, hp, rfl⟩ | ⟨_, hp, rfl⟩ := startCommand_cases h
  · simp [hr] at not_ready
  · exact ⟨_, startCommand_legal (same.cmdReady.trans hr) (by rwa [same.phase]), startRun_sameRun same.pending⟩
  · exact command_sameRun_of_illegal (i := .start) same hr (by obtain hp | hp := hp <;> simp [legalPhases, hp])

/-- A command takes cores that agree to cores that agree. -/
theorem command_sameRun (same : SameRun s t) (h : command i s = .next s') :
    ∃ t', command i t = .next t' ∧ SameRun s' t' := by
  cases hr : cmdReady s with
  | false =>
    obtain rfl := Host.Outcome.next.inj ((command_of_not_ready hr i).symm.trans h)
    exact ⟨t, command_of_not_ready (same.cmdReady.trans hr) i, same⟩
  | true =>
    cases i with
    | byte b => exact byteCommand_sameRun same hr h
    | eos => exact eosCommand_sameRun same hr h
    | start => exact startCommand_sameRun same hr h
    | reserved =>
      obtain rfl := Host.Outcome.next.inj ((reservedCommand_of_ready hr).symm.trans h)
      exact command_sameRun_of_illegal (i := .reserved) same hr (by simp [legalPhases])

theorem runCommands_cons_eq_next_iff {is : List Instr} :
    runCommands (i :: is) s = .next t ↔ ∃ u, command i s = .next u ∧ runCommands is (transfer u) = .next t := by
  cases h : command i s <;> simp [runCommands, h]

/-- A run of commands takes cores that agree to cores that agree. -/
theorem runCommands_sameRun {is : List Instr} (same : SameRun s t) (h : runCommands is s = .next s') :
    ∃ t', runCommands is t = .next t' ∧ SameRun s' t' := by
  induction is generalizing s t with
  | nil =>
    cases h
    exact ⟨t, rfl, same⟩
  | cons i is ih =>
    obtain ⟨u, executed, others⟩ := runCommands_cons_eq_next_iff.mp h
    obtain ⟨v, executed', same'⟩ := command_sameRun same executed
    rw [runCommands_cons executed']
    exact ih same'.transfer others

/-- From START on a run depends on its commands only, not on the core it starts on. -/
theorem runCommands_start_sameRun {is : List Instr} (hs : canStart s) (ht : canStart t)
    (h : runCommands (.start :: is) s = .next s') :
    ∃ t', runCommands (.start :: is) t = .next t' ∧ SameRun s' t' := by
  rw [runCommands_cons (command_start hs)] at h
  rw [runCommands_cons (command_start ht)]
  exact runCommands_sameRun (startRun_sameRun (ht.2.trans hs.2.symm)).transfer h

/-- Each command of a run has its code accepted before the next, and so has the last. -/
theorem runCommands_pending {is : List Instr} (pending : s.pending = none) (h : runCommands is s = .next t) :
    t.pending = none := by
  induction is generalizing s with
  | nil =>
    cases h
    exact pending
  | cons i is ih =>
    obtain ⟨u, _, others⟩ := runCommands_cons_eq_next_iff.mp h
    exact ih (transfer_pending u) others

/-- Settles O47: a run can start again in DONE, and from START on it depends on its commands only. -/
theorem repeatedRunsAgree : Obligations.RepeatedRunsAgree := by
  intro w _ bs between s t₁ t₂ start first others done
  have restart : canStart t₂ := ⟨.inr done, runCommands_pending (runCommands_pending start.2 first) others⟩
  obtain ⟨t₃, second, same⟩ := runCommands_start_sameRun start restart first
  exact ⟨t₃, second, same.out, same.next_code, same.reads⟩

end Sys2Proof.Machine
end

section
/-! PROOFS. BYTE (42_byte.md): the seed of the prefix (R116), a hit (R117), a miss with room and a saturated one
(R118, R119), that a step emits and inserts at most once (R122), and what BYTE leaves unchanged. -/

namespace Sys2Proof.Machine

open Sys2Proof.Safety

variable {w : Nat} {s t : CoreState w} {p : Code w} {c : Byte}

/-! ### The first byte and a hit (R116, R117) -/

/-- Settles O14: the next state is `byteSeed`, and a byte fits a code. -/
theorem firstByteSeedsThePrefix : Obligations.FirstByteSeedsThePrefix :=
  fun b _ hr hp => ⟨exec_of_command (byteCommand_ready hr hp b), literalCode_toNat (by decide) b⟩

/-- In RUN only the register itself is written with the prefix. -/
theorem setPrefix_of_run (hp : s.phase = .run) (v : Code w) : setPrefix v s = { s with currentPrefixCode := some v } := by
  rw [setPrefix, ← hp]

/-- Settles O15: the next state is `setPrefix idx`, and the search answers codes of learnt entries only. -/
theorem byteHitExtendsThePrefix : Obligations.ByteHitExtendsThePrefix := by
  intro c s p idx hr hp hc hit
  have extended : byteCommand c s.toCoreState = .next { s.toCoreState with currentPrefixCode := some idx } := by
    rw [byteCommand_hit hr hp hc hit, setPrefix_of_run hp]
  refine ⟨exec_of_command extended, fun high => ?_⟩
  obtain ⟨low, below, _, _⟩ := search_some high hit
  exact ⟨low, below⟩

/-! ### A miss (R118, R119) -/

/-- An insertion does not look at what has been emitted, so the two may change places. -/
theorem insert_emit (v : Code w) : insert p c (emit v s) = emit v (insert p c s) := by
  by_cases room : s.nextCode.toNat < Config.tableSize w
  · rw [insert_of_lt room, insert_of_lt (s := emit v s) room]
    rfl
  · rw [insert_saturated (Nat.le_of_not_lt room), insert_saturated (s := emit v s) (Nat.le_of_not_lt room)]

/-- A miss is an insertion with two registers' updates around it, neither of which touches table or counter. -/
theorem byteMiss_eq : byteMiss p c s = setPrefix (literalCode w c) (emit p (insert p c s)) := by
  rw [byteMiss, insert_emit]

@[simp] theorem byteMiss_phase : (byteMiss p c s).phase = .run := rfl
@[simp] theorem byteMiss_currentPrefixCode : (byteMiss p c s).currentPrefixCode = some (literalCode w c) := rfl
@[simp] theorem byteMiss_out : (byteMiss p c s).out = s.out ++ [p] := by simp [byteMiss_eq]
@[simp] theorem byteMiss_pending : (byteMiss p c s).pending = some p := by simp [byteMiss_eq]
@[simp] theorem byteMiss_literalsPresent : (byteMiss p c s).literalsPresent = s.literalsPresent := by simp [byteMiss_eq]
@[simp] theorem byteMiss_faultCause : (byteMiss p c s).faultCause = s.faultCause := by simp [byteMiss_eq]
@[simp] theorem byteMiss_nextCode : (byteMiss p c s).nextCode = (insert p c s).nextCode := by simp [byteMiss_eq]
@[simp] theorem byteMiss_table : (byteMiss p c s).table = (insert p c s).table := by simp [byteMiss_eq]

@[simp] theorem memRead_byteMiss (a : Nat) : memRead (byteMiss p c s) a = memRead (insert p c s) a :=
  congrFun (memRead_congr (by simp) byteMiss_table byteMiss_nextCode) a

@[simp] theorem full_byteMiss : full (byteMiss p c s) = full (insert p c s) := by
  rw [full, full, byteMiss_nextCode]

/-- A saturated miss writes `out`, with the code that waits, and the prefix only (R119). -/
theorem byteMiss_saturated (saturated : Config.tableSize w ≤ s.nextCode.toNat) :
    byteMiss p c s =
      { s with out := s.out ++ [p], pending := some p, currentPrefixCode := some (literalCode w c), phase := .run } := by
  rw [byteMiss_eq, insert_saturated saturated]
  rfl

/-- Settles O16: the next state is `byteMiss`, which reads and counts as the insertion does. -/
theorem byteMissEmitsAndLearns : Obligations.ByteMissEmitsAndLearns := by
  intro c s p hr hp hc missed low room
  refine ⟨_, exec_of_command (byteCommand_miss hr hp hc missed), byteMiss_out, byteMiss_pending, ?learnt, ?others, ?counter,
    rfl, rfl, ?full, byteMiss_literalsPresent, byteMiss_faultCause, rfl, rfl⟩
  case learnt => rw [memRead_byteMiss, memRead_insert_same low room]
  case others => exact fun a other => by rw [memRead_byteMiss, memRead_insert_other room other]
  case counter => rw [byteMiss_nextCode, nextCode_insert room]
  case full => rw [full_byteMiss, full_insert_iff room]

/-- Settles O17: the next state is `byteMiss`, whose insertion does nothing once the table is saturated. -/
theorem byteMissWhenSaturated : Obligations.ByteMissWhenSaturated := by
  intro c s p hr hp hc missed saturated
  exact exec_of_command ((byteCommand_miss hr hp hc missed).trans (congrArg _ (byteMiss_saturated saturated.ge)))

/-! ### At most one code and one entry (R122) -/

/-- A miss inserts nothing, or one entry at the old `next_code`. -/
theorem byteMiss_insertion (low : 256 ≤ s.nextCode.toNat) :
    ((byteMiss p c s).nextCode = s.nextCode ∧ (byteMiss p c s).table = s.table) ∨
      ((byteMiss p c s).nextCode.toNat = s.nextCode.toNat + 1 ∧
        ∃ e, memRead (byteMiss p c s) s.nextCode.toNat = some (.pair e) ∧
          ∀ a, a ≠ s.nextCode.toNat → memRead (byteMiss p c s) a = memRead s a) := by
  by_cases room : s.nextCode.toNat < Config.tableSize w
  · refine .inr ⟨by rw [byteMiss_nextCode, nextCode_insert room], ⟨p, c⟩, ?_, fun a other => ?_⟩
    · rw [memRead_byteMiss, memRead_insert_same low room]
    · rw [memRead_byteMiss, memRead_insert_other room other]
  · left
    rw [byteMiss_nextCode, byteMiss_table, insert_saturated (Nat.le_of_not_lt room)]
    exact ⟨rfl, rfl⟩

/-- An accepted BYTE where it is legal gives the prefix a value, learnt if it was in RUN, and nothing more; or it is a miss in
RUN. -/
theorem byteCommand_legal_cases (hr : cmdReady s = true) (hp : s.phase = .ready ∨ s.phase = .run)
    (high : s.nextCode.toNat ≤ Config.tableSize w) (h : byteCommand c s = .next t) :
    (∃ q, t = setPrefix q s ∧ (s.phase = .run → 256 ≤ q.toNat)) ∨ (∃ p, t = byteMiss p c s) := by
  obtain ⟨not_ready, _⟩ | ⟨_, ready, seed⟩ | ⟨_, run, p, _, ⟨idx, hit, extended⟩ | ⟨_, missed⟩⟩ | ⟨_, stopped, _⟩ :=
    byteCommand_cases h
  · simp [hr] at not_ready
  · exact .inl ⟨_, seed, fun run => by simp [run] at ready⟩
  · obtain ⟨low, _⟩ := search_some high hit
    exact .inl ⟨idx, extended, fun _ => low⟩
  · exact .inr ⟨p, missed⟩
  · obtain hp | hp := hp <;> simp [hp] at stopped

/-- Settles O18: only a miss emits or inserts, and it restarts from a byte. -/
theorem byteEmitsAndInsertsAtMostOnce : Obligations.ByteEmitsAndInsertsAtMostOnce := by
  intro b s t inv hr hp h
  obtain ⟨executed, _, _⟩ := onCore_next ((exec_eq_onCore (.byte b) s).symm.trans h)
  have run : RunInv s.toCoreState := inv.run (hp.imp_right .inl)
  obtain ⟨q, core, learnt⟩ | ⟨p, core⟩ := byteCommand_legal_cases hr hp run.next_code_high executed
  · rw [core]
    exact ⟨.inl ⟨rfl, (cmdReady_iff.mp hr).2, rfl, rfl⟩, q, rfl, fun emitted => absurd rfl emitted, fun _ => learnt⟩
  · have literal : (literalCode Config.codeWidth b).toNat < 256 := by
      rw [literalCode_toNat (by decide)]
      exact b.isLt
    rw [core]
    exact ⟨.inr ⟨p, byteMiss_out, byteMiss_pending, byteMiss_insertion run.next_code_low⟩, _, rfl, fun _ => literal,
      fun quiet => by simp at quiet⟩

/-! ### What BYTE leaves unchanged -/

/-- An insertion keeps every entry of the RAM but the one at its address. -/
theorem read_insert_other {a : Nat} (other : insertAddress s ≠ some a) :
    Memory.read (insert p c s).table a = Memory.read s.table a := by
  by_cases room : s.nextCode.toNat < Config.tableSize w
  · rw [insertAddress_of_lt room] at other
    rw [insert_of_lt room]
    exact read_write_other _ _ fun h => other (congrArg some h.symm)
  · rw [insert_saturated (Nat.le_of_not_lt room)]

/-- BYTE keeps every entry of the RAM but the one at the address of its insertion, and without an emission the whole RAM, the
counter and the code port. -/
theorem byteCommand_frame (h : byteCommand c s = .next t) :
    (∀ a, insertAddress s ≠ some a → Memory.read t.table a = Memory.read s.table a) ∧
      (t.out = s.out → t.table = s.table ∧ t.nextCode = s.nextCode ∧ t.pending = s.pending) ∧
      (t.phase ≠ .fault → t.faultCause = s.faultCause) ∧ t.literalsPresent = s.literalsPresent := by
  obtain ⟨_, rfl⟩ | ⟨_, _, rfl⟩ | ⟨_, _, p, _, ⟨idx, _, rfl⟩ | ⟨_, rfl⟩⟩ | ⟨_, _, rfl⟩ := byteCommand_cases h
  · simp
  · simp [byteSeed]
  · simp
  · refine ⟨fun a other => ?_, by simp, by simp, byteMiss_literalsPresent⟩
    rw [byteMiss_table, read_insert_other other]
  · simp

/-- Settles O33: the core's frame, and that the environment's part stays. -/
theorem byteFrame : Obligations.ByteFrame := by
  intro b s t h
  obtain ⟨executed, inputs, freeIndex⟩ := onCore_next ((exec_eq_onCore (.byte b) s).symm.trans h)
  obtain ⟨other_entries, quiet, cause, literals⟩ := byteCommand_frame executed
  refine ⟨fun a' address a other => other_entries a ?_, fun nowhere a => other_entries a (by simp [nowhere]),
    fun no_code a => ?_, fun no_code => (quiet no_code).2, cause, literals, inputs, freeIndex⟩
  · rw [address]
    exact fun h => other (Option.some.inj h).symm
  · rw [(quiet no_code).1]

end Sys2Proof.Machine
end

section
/-! PROOFS. EOS (43_eos.md): the end of an empty input (R130) and the flush of the pending prefix (R131), each lifted to the
machine from the core's step. -/

namespace Sys2Proof.Machine

/-- Settles O19: the next state is `eosEmpty`, which writes the phase only. -/
theorem eosOnEmptyInput : Obligations.EosOnEmptyInput :=
  fun _ hr hp => exec_of_command (eosCommand_ready hr hp)

/-- Settles O20: the next state is `eosFlush` of the prefix, one emission and the two registers that end the run. -/
theorem eosFlushesThePrefix : Obligations.EosFlushesThePrefix :=
  fun _ _ hr hp hc => exec_of_command (eosCommand_run hr hp hc)

end Sys2Proof.Machine
end

section
/-! PROOFS. The invariant of the machine (44_run_contract.md section 3): each update of a command keeps it, so every step
does. -/

namespace Sys2Proof.Machine

open Sys2Proof.Safety

variable {w : Nat} {s t : CoreState w} {p q : Code w} {c : Byte} {i : Instr}

/-! ### The updates of a run keep the run's invariant (R143 to R148, R151) -/

/-- START begins a run with the literals alone, provided that the prefix register holds nothing. -/
theorem startRun_runInv (hw : 8 ≤ w) (no_prefix : s.currentPrefixCode = none) : RunInv (startRun s) where
  literals := rfl
  next_code_low := (nextCode_startRun hw s).ge
  next_code_high := (nextCode_startRun hw s).trans_le (Nat.pow_le_pow_right (n := 2) (by omega) hw)
  prefix_populated p hc := by simp [no_prefix] at hc
  entries_below a low high := absurd (high.trans_eq (nextCode_startRun hw s)) (Nat.not_lt.mpr low)
  entries_unique a b low ab high := absurd (high.trans_eq (nextCode_startRun hw s)) (Nat.not_lt.mpr (low.trans ab.le))
  outputs_populated v emitted := by simp at emitted
  count_open _ := (nextCode_startRun hw s).trans (by simp [Config.alphabetSize])
  count_done ended := by simp at ended
  entries_record_output k e read := by simp [memRead_startRun, Config.alphabetSize] at read
  ready_fresh _ := rfl

theorem emitted_populated (inv : RunInv s) (populated : p.toNat < s.nextCode.toNat) :
    ∀ v ∈ s.out ++ [p], v.toNat < s.nextCode.toNat := by
  intro v emitted
  obtain earlier | rfl : v ∈ s.out ∨ v = p := by simpa using emitted
  · exact inv.outputs_populated v earlier
  · exact populated

/-- An emission keeps the record of the entries' prefixes, for it appends to the output. -/
theorem emitted_record (inv : RunInv s) (p : Code w) {k : Nat} {e : PairEntry w}
    (read : memRead s (Config.alphabetSize + k) = some (.pair e)) : (s.out ++ [p])[k]? = some e.prefixCode := by
  have recorded := inv.entries_record_output k e read
  rwa [List.getElem?_append_left (List.getElem?_eq_some_iff.mp recorded).1]

theorem transfer_runInv (inv : RunInv s) : RunInv (transfer s) :=
  { inv with }

/-- A BYTE that emits nothing gives the prefix a populated code. -/
theorem setPrefix_runInv (inv : RunInv s) (running : s.phase ≠ .done) (populated : q.toNat < s.nextCode.toNat) :
    RunInv (setPrefix q s) :=
  { inv with
    prefix_populated := fun p hc => by
      obtain rfl : q = p := by simpa using hc
      exact populated
    count_open := fun _ => inv.count_open running
    count_done := nofun
    ready_fresh := nofun }

/-- EOS on an empty input ends a run that has emitted nothing (43_eos.md R130). -/
theorem eosEmpty_runInv (inv : RunInv s) (hp : s.phase = .ready) : RunInv (eosEmpty s) :=
  { inv with
    count_open := fun running => absurd rfl running
    count_done := fun _ => by simpa [inv.ready_fresh hp] using inv.count_open (by simp [hp])
    ready_fresh := nofun }

/-- The flush adds the one code that no entry goes with (43_eos.md R131). -/
theorem eosFlush_runInv (inv : RunInv s) (hp : s.phase = .run) (populated : p.toNat < s.nextCode.toNat) :
    RunInv (eosFlush s p) :=
  { inv with
    prefix_populated := nofun
    outputs_populated := emitted_populated inv populated
    count_open := fun running => absurd rfl running
    count_done := fun _ => by simpa using inv.count_open (by simp [hp])
    entries_record_output := fun _ _ => emitted_record inv p
    ready_fresh := nofun }

/-- While there is room, the next entry to be learnt is numbered by the codes emitted so far (R148). -/
theorem nextCode_eq_of_room (inv : RunInv s) (running : s.phase ≠ .done) (room : s.nextCode.toNat < Config.tableSize w) :
    s.nextCode.toNat = 256 + s.out.length := by
  have count := inv.count_open running
  simp only [Config.learnable, Config.alphabetSize] at count
  omega

/-- The first half of a miss with room: the prefix is emitted and its pair with the byte, which the search did not find,
is learnt (42_byte.md R118). -/
theorem insert_emit_runInv (inv : RunInv s) (hp : s.phase = .run) (hc : s.currentPrefixCode = some p)
    (missed : search s p c = none) (room : s.nextCode.toNat < Config.tableSize w) :
    RunInv (insert p c (emit p s)) := by
  have populated := inv.prefix_populated p hc
  have low : 256 ≤ s.nextCode.toNat := inv.next_code_low
  have numbered := nextCode_eq_of_room inv (by simp [hp]) room
  have next : (insert p c (emit p s)).nextCode.toNat = s.nextCode.toNat + 1 := nextCode_insert (s := emit p s) room
  have same : memRead (insert p c (emit p s)) s.nextCode.toNat = some (.pair ⟨p, c⟩) :=
    memRead_insert_same (s := emit p s) low room
  have other : ∀ a, a ≠ s.nextCode.toNat → memRead (insert p c (emit p s)) a = memRead s a :=
    fun a ne => memRead_insert_other (s := emit p s) room ne
  refine ⟨?literals, ?low, ?high, ?prefix_populated, ?below, ?unique, ?outputs, ?count_open, ?count_done, ?record,
    ?fresh⟩
  case literals => simpa using inv.literals
  case low => rw [next]; exact low.trans (Nat.le_succ _)
  case high => rw [next]; exact room
  case prefix_populated =>
    intro q hq
    obtain rfl : p = q := by simpa [hc] using hq
    omega
  case below =>
    intro a low_a high_a
    by_cases new : a = s.nextCode.toNat
    · rw [new]
      exact ⟨⟨p, c⟩, same, populated⟩
    · rw [other a new]
      exact inv.entries_below a low_a (by omega)
  case unique =>
    intro a b low_a ab high_b
    rw [other a (by omega)]
    by_cases new : b = s.nextCode.toNat
    · rw [new, same]
      exact search_eq_none_iff.mp missed a low_a (by omega)
    · rw [other b new]
      exact inv.entries_unique a b low_a ab (by omega)
  case outputs =>
    intro v emitted
    rw [insert_out, emit_out] at emitted
    exact next ▸ (emitted_populated inv populated v emitted).trans (Nat.lt_succ_self _)
  case count_open =>
    intro _
    simp only [next, insert_out, emit_out, List.length_append, List.length_singleton, Config.learnable,
      Config.alphabetSize]
    omega
  case count_done => simp [hp]
  case record =>
    intro k e read
    rw [insert_out, emit_out]
    by_cases new : 256 + k = s.nextCode.toNat
    · obtain rfl : k = s.out.length := by omega
      rw [Config.alphabetSize, new, same] at read
      obtain rfl : (⟨p, c⟩ : PairEntry w) = e := by simpa using read
      simp
    · rw [Config.alphabetSize, other _ new] at read
      exact emitted_record inv p read
  case fresh => simp [hp]

/-- The first half of a saturated miss: the prefix is emitted (42_byte.md R119). -/
theorem emit_runInv_of_saturated (hw : 8 ≤ w) (inv : RunInv s) (hp : s.phase = .run)
    (populated : p.toNat < s.nextCode.toNat) (saturated : Config.tableSize w ≤ s.nextCode.toNat) : RunInv (emit p s) :=
  { inv with
    outputs_populated := emitted_populated inv populated
    count_open := fun running => by
      have count := inv.count_open running
      have room : 256 ≤ Config.tableSize w := Nat.pow_le_pow_right (n := 2) (by omega) hw
      simp only [emit_nextCode, emit_out, List.length_append, List.length_singleton, Config.learnable,
        Config.alphabetSize] at count ⊢
      omega
    count_done := by simp [hp]
    entries_record_output := fun _ _ => emitted_record inv p
    ready_fresh := by simp [hp] }

theorem literalCode_populated (hw : 8 ≤ w) (inv : RunInv s) (b : Byte) : (literalCode w b).toNat < s.nextCode.toNat := by
  rw [literalCode_toNat hw]
  exact b.isLt.trans_le inv.next_code_low

/-- A miss keeps the invariant of a run, with room and without. -/
theorem byteMiss_runInv (hw : 8 ≤ w) (inv : RunInv s) (hp : s.phase = .run) (hc : s.currentPrefixCode = some p)
    (missed : search s p c = none) : RunInv (byteMiss p c s) := by
  have learnt : RunInv (insert p c (emit p s)) := by
    by_cases room : s.nextCode.toNat < Config.tableSize w
    · exact insert_emit_runInv inv hp hc missed room
    · rw [Nat.not_lt] at room
      rw [insert_saturated (s := emit p s) room]
      exact emit_runInv_of_saturated hw inv hp (inv.prefix_populated p hc) room
  exact setPrefix_runInv learnt (by simp [hp]) (literalCode_populated hw learnt c)

/-! ### The commands keep the invariant of the core -/

/-- The invariant of the core in a phase of a run. -/
theorem coreInv_of_runInv (phase : inRun s) (inv : RunInv s) (wf : Memory.wf s.table) (cause : s.faultCause = .noFault)
    (prefix_in_run : s.currentPrefixCode.isSome = true ↔ s.phase = .run)
    (last : ∀ v, s.pending = some v → (s.phase = .run ∨ s.phase = .done) ∧ s.out.getLast? = some v) : CoreInv s where
  table_wf := wf
  prefix_exactly_in_run := prefix_in_run
  cause_exactly_in_fault := by obtain h | h | h := phase <;> simp [h, cause]
  pending_is_last := last
  idle_empty idle := by obtain h | h | h := phase <;> simp [h] at idle
  run _ := inv

theorem faultCause_of_ready (inv : CoreInv s) (hr : cmdReady s = true) : s.faultCause = .noFault := by
  by_contra fault
  exact (cmdReady_iff.mp hr).1 (inv.cause_exactly_in_fault.mp fault)

theorem prefix_none (inv : CoreInv s) (hp : s.phase ≠ .run) : s.currentPrefixCode = none := by
  by_contra value
  exact hp (inv.prefix_exactly_in_run.mp (Option.isSome_iff_ne_none.mpr value))

theorem illegalCause_ne_noFault (i : Instr) : illegalCause i ≠ .noFault := by
  rw [illegalCause]
  split <;> decide

theorem raiseFault_inv (inv : CoreInv s) (hr : cmdReady s = true) (i : Instr) :
    CoreInv (raiseFault (illegalCause i) s) where
  table_wf := inv.table_wf
  prefix_exactly_in_run := by simp
  cause_exactly_in_fault := by simp [illegalCause_ne_noFault]
  pending_is_last v waits := by simp [(cmdReady_iff.mp hr).2] at waits
  idle_empty := nofun
  run h := by simp [inRun] at h

theorem setPrefix_inv (inv : CoreInv s) (hr : cmdReady s = true) (hp : s.phase = .ready ∨ s.phase = .run)
    (populated : q.toNat < s.nextCode.toNat) : CoreInv (setPrefix q s) :=
  coreInv_of_runInv (.inr (.inl rfl))
    (setPrefix_runInv (inv.run (hp.imp_right .inl)) (by obtain hp | hp := hp <;> simp [hp]) populated) inv.table_wf
    (faultCause_of_ready (s := s) inv hr) (by simp) (by simp [(cmdReady_iff.mp hr).2])

theorem wf_insert (wf : Memory.wf s.table) (low : 256 ≤ s.nextCode.toNat) : Memory.wf (insert p c s).table := by
  by_cases room : s.nextCode.toNat < Config.tableSize w
  · rw [insert_of_lt room]
    exact wf_write ⟨p, c⟩ wf low room
  · rwa [insert_saturated (Nat.le_of_not_lt room)]

theorem byteMiss_inv (hw : 8 ≤ w) (inv : CoreInv s) (hr : cmdReady s = true) (hp : s.phase = .run)
    (hc : s.currentPrefixCode = some p) (missed : search s p c = none) : CoreInv (byteMiss p c s) := by
  have run := inv.run (.inr (.inl hp))
  refine coreInv_of_runInv (.inr (.inl rfl)) (byteMiss_runInv hw run hp hc missed) ?_ ?_ (by simp) (by simp)
  · rw [byteMiss_table]
    exact wf_insert inv.table_wf run.next_code_low
  · rw [byteMiss_faultCause, faultCause_of_ready inv hr]

theorem eosEmpty_inv (inv : CoreInv s) (hr : cmdReady s = true) (hp : s.phase = .ready) : CoreInv (eosEmpty s) :=
  coreInv_of_runInv (.inr (.inr rfl)) (eosEmpty_runInv (inv.run (.inl hp)) hp) inv.table_wf
    (faultCause_of_ready (s := s) inv hr) (by simp [prefix_none inv, hp]) (by simp [(cmdReady_iff.mp hr).2])

theorem eosFlush_inv (inv : CoreInv s) (hr : cmdReady s = true) (hp : s.phase = .run)
    (hc : s.currentPrefixCode = some p) : CoreInv (eosFlush s p) := by
  have run := inv.run (.inr (.inl hp))
  exact coreInv_of_runInv (.inr (.inr rfl)) (eosFlush_runInv run hp (run.prefix_populated p hc)) inv.table_wf
    (faultCause_of_ready (s := s) inv hr) (by simp) (by simp)

theorem startRun_inv (hw : 8 ≤ w) (inv : CoreInv s) (hr : cmdReady s = true) (hp : s.phase ≠ .run) :
    CoreInv (startRun s) :=
  coreInv_of_runInv (.inl rfl) (startRun_runInv hw (prefix_none inv hp)) inv.table_wf (faultCause_of_ready (s := s) inv hr)
    (by simp [prefix_none inv hp]) (by simp [(cmdReady_iff.mp hr).2])

theorem byteCommand_inv (hw : 8 ≤ w) (inv : CoreInv s) (h : byteCommand c s = .next t) : CoreInv t := by
  obtain ⟨_, rfl⟩ | ⟨hr, hp, rfl⟩ | ⟨hr, hp, p, hc, ⟨idx, hit, rfl⟩ | ⟨missed, rfl⟩⟩ | ⟨hr, _, rfl⟩ :=
    byteCommand_cases h
  · exact inv
  · exact setPrefix_inv inv hr (.inl hp) (literalCode_populated hw (inv.run (.inl hp)) c)
  · obtain ⟨_, populated, _⟩ := search_some (inv.run (.inr (.inl hp))).next_code_high hit
    exact setPrefix_inv inv hr (.inr hp) populated
  · exact byteMiss_inv hw inv hr hp hc missed
  · exact raiseFault_inv inv hr (.byte c)

theorem eosCommand_inv (inv : CoreInv s) (h : eosCommand s = .next t) : CoreInv t := by
  obtain ⟨_, rfl⟩ | ⟨hr, hp, rfl⟩ | ⟨hr, hp, p, hc, rfl⟩ | ⟨hr, _, rfl⟩ := eosCommand_cases h
  · exact inv
  · exact eosEmpty_inv inv hr hp
  · exact eosFlush_inv inv hr hp hc
  · exact raiseFault_inv inv hr .eos

theorem startCommand_inv (hw : 8 ≤ w) (inv : CoreInv s) (h : startCommand s = .next t) : CoreInv t := by
  obtain ⟨_, rfl⟩ | ⟨hr, hp, rfl⟩ | ⟨hr, _, rfl⟩ := startCommand_cases h
  · exact inv
  · exact startRun_inv hw inv hr (by obtain hp | hp := hp <;> simp [hp])
  · exact raiseFault_inv inv hr .start

/-- A command keeps the invariant, at every admitted width. -/
theorem command_inv (hw : 8 ≤ w) (inv : CoreInv s) (h : command i s = .next t) : CoreInv t := by
  cases i with
  | byte b => exact byteCommand_inv hw inv h
  | eos => exact eosCommand_inv inv h
  | start => exact startCommand_inv hw inv h
  | reserved =>
    obtain ⟨_, rfl⟩ | ⟨hr, rfl⟩ := reservedCommand_cases h
    · exact inv
    · exact raiseFault_inv inv hr .reserved

theorem transfer_inv (inv : CoreInv s) : CoreInv (transfer s) :=
  { inv with
    pending_is_last := nofun
    run := fun h => transfer_runInv (inv.run h) }

/-- Settles O36: a moment brings RESET, a transfer, a command or nothing, and each keeps the invariant. -/
theorem invariantKeptByEveryStep : Obligations.InvariantKeptByEveryStep := by
  intro s t inv h
  obtain ⟨_, rfl⟩ | ⟨m, rest, _, event⟩ := step_cases h
  · exact inv
  · obtain ⟨_, rfl⟩ | ⟨_, _, _, rfl⟩ | ⟨_, _, _, rfl⟩ | ⟨_, _, _, executed⟩ | ⟨_, _, _, rfl⟩ := event
    · exact resetCore_inv _
    · exact transfer_inv inv
    · exact inv
    · obtain ⟨commanded, _, _⟩ := onCore_next ((exec_eq_onCore _ _).symm.trans executed)
      exact command_inv (s := s.toCoreState) (by decide) inv commanded
    · exact inv

end Sys2Proof.Machine
end

section
/-! PROOFS. The table of a run: the expansions of its codes are distinct and closed under initial parts (R152), the table
only grows, not at all once it is full (R140, R150), and so emitted codes keep their expansions (R147). -/

namespace Sys2Proof.Machine

open Sys2Proof.Safety

variable {w : Nat} {s t u : CoreState w} {p v : Code w} {c : Byte} {a : Nat} {i : Instr}

/-! ### Initial parts of expansions (R152) -/

/-- A proper initial part of a learnt code's string is the string of its prefix, or an initial part of that. -/
theorem expand_initial_part (inv : RunInv s) {x y : List Byte} (populated : a < s.nextCode.toNat) (x_ne : x ≠ [])
    (y_ne : y ≠ []) (expands : expand s a = some (x ++ y)) : ∃ b, b < a ∧ expand s b = some x := by
  induction a using Nat.strong_induction_on generalizing y with
  | _ a ih =>
    obtain ⟨_, single⟩ | ⟨e, z, _, _, smaller, expand_z, _, extended⟩ := populated_cases inv populated
    · rw [expands, Option.some_inj, List.append_eq_singleton_iff] at single
      simp [x_ne, y_ne] at single
    · have strings : x ++ y = z ++ [e.nextByte] := Option.some_inj.mp (expands.symm.trans extended)
      obtain rfl | ⟨y', d, rfl⟩ := List.eq_nil_or_concat' y
      · exact absurd rfl y_ne
      · obtain ⟨rfl, _⟩ := List.append_inj' ((List.append_assoc x y' [d]).trans strings) rfl
        by_cases y'_ne : y' = []
        · exact ⟨_, smaller, by simpa [y'_ne] using expand_z⟩
        · obtain ⟨b, below, expand_b⟩ := ih _ smaller (smaller.trans populated) y'_ne expand_z
          exact ⟨b, below.trans smaller, expand_b⟩

/-- Settles O41: each part by induction along the prefixes, which are smaller codes. -/
theorem expansionsDistinctAndClosed : Obligations.ExpansionsDistinctAndClosed :=
  fun _ _ _ _ inv => ⟨fun _ populated => expand_exists inv populated, fun _ _ => expand_injective inv,
    fun _ _ _ populated x_ne y_ne => expand_initial_part inv populated x_ne y_ne⟩

/-! ### The table grows, until it is full (R140, R150) -/

/-- From `s` to `t` the table has at most grown, and if it was full in `s` it is the same. -/
structure Grows (s t : CoreState w) : Prop where
  next_code : s.nextCode.toNat ≤ t.nextCode.toNat
  reads : ∀ a, a < s.nextCode.toNat → memRead t a = memRead s a
  saturated : Config.tableSize w ≤ s.nextCode.toNat → t.nextCode = s.nextCode ∧ ∀ a, memRead t a = memRead s a

theorem grows_of_eq (next_code : t.nextCode = s.nextCode) (reads : ∀ a, memRead t a = memRead s a) : Grows s t :=
  ⟨next_code ▸ le_rfl, fun a _ => reads a, fun _ => ⟨next_code, reads⟩⟩

theorem Grows.trans (first : Grows s t) (second : Grows t u) : Grows s u where
  next_code := first.next_code.trans second.next_code
  reads a below := (second.reads a (below.trans_le first.next_code)).trans (first.reads a below)
  saturated full := by
    obtain ⟨next, reads⟩ := first.saturated full
    obtain ⟨next', reads'⟩ := second.saturated (next ▸ full)
    exact ⟨next'.trans next, fun a => (reads' a).trans (reads a)⟩

theorem insert_grows : Grows s (insert p c s) := by
  by_cases room : s.nextCode.toNat < Config.tableSize w
  · exact ⟨by rw [nextCode_insert room]; omega, fun a below => memRead_insert_other room below.ne,
      fun full => absurd room (Nat.not_lt.mpr full)⟩
  · rw [insert_saturated (Nat.le_of_not_lt room)]
    exact grows_of_eq rfl fun _ => rfl

theorem byteMiss_grows : Grows s (byteMiss p c s) :=
  insert_grows.trans (grows_of_eq byteMiss_nextCode fun _ => memRead_byteMiss _)

/-- Of the commands START alone takes entries away. -/
theorem command_grows (not_start : i ≠ .start) (h : command i s = .next t) : Grows s t := by
  by_cases byte : ∃ c, i = .byte c
  · obtain ⟨c, rfl⟩ := byte
    obtain ⟨_, rfl⟩ | ⟨_, _, rfl⟩ | ⟨_, _, p, _, ⟨idx, _, rfl⟩ | ⟨_, rfl⟩⟩ | ⟨_, _, rfl⟩ :=
      byteCommand_cases h
    · exact grows_of_eq rfl fun _ => rfl
    · exact grows_of_eq rfl fun _ => rfl
    · exact grows_of_eq rfl fun _ => rfl
    · exact byteMiss_grows
    · exact grows_of_eq rfl fun _ => rfl
  · have not_byte : i = .eos ∨ i = .start ∨ i = .reserved := by
      cases i <;> simp at byte ⊢
    obtain rfl | rfl | ⟨_, rfl | ⟨p, rfl⟩⟩ | ⟨start, _⟩ := command_cases_of_not_byte not_byte h
    · exact grows_of_eq rfl fun _ => rfl
    · exact grows_of_eq rfl fun _ => rfl
    · exact grows_of_eq rfl fun _ => rfl
    · exact grows_of_eq rfl fun _ => rfl
    · exact absurd start not_start

theorem runCommands_grows {is : List Instr} (no_start : ∀ i ∈ is, i ≠ .start) (h : runCommands is s = .next t) :
    Grows s t := by
  induction is generalizing s with
  | nil =>
    cases h
    exact grows_of_eq rfl fun _ => rfl
  | cons i is ih =>
    obtain ⟨u, executed, others⟩ := runCommands_cons_eq_next_iff.mp h
    have first := command_grows (no_start i List.mem_cons_self) executed
    have transferred : Grows u (transfer u) := grows_of_eq rfl fun _ => rfl
    exact (first.trans transferred).trans (ih (fun j hj => no_start j (List.mem_cons_of_mem i hj)) others)

/-- Without RESET and an accepted START, steps do to the table what the accepted commands do. -/
theorem steps_grows {n : Nat} {s t : State} (no_reset : noReset n s)
    (no_start : ∀ word ∈ acceptedWords n s, decode word ≠ .start) (h : steps n s = .next t) :
    Grows s.toCoreState t.toCoreState := by
  have grown : Grows (settled s) (settled t) :=
    runCommands_grows (by simpa using no_start) (stepsAreTheAcceptedCommands n s t no_reset h)
  exact { grown with }

/-- Settles O40: the growth over any steps of a run. -/
theorem tableGrowsMonotonically : Obligations.TableGrowsMonotonically := by
  intro n s t no_reset no_start h
  have grown := steps_grows no_reset no_start h
  exact ⟨grown.next_code, grown.reads⟩

/-- Settles O39: the growth over any steps from a full table. -/
theorem saturationIsPermanent : Obligations.SaturationIsPermanent := by
  intro n s t saturated no_reset no_start h
  rw [full_iff] at saturated
  obtain ⟨next, reads⟩ := (steps_grows no_reset no_start h).saturated saturated.ge
  exact ⟨full_iff.mpr (next ▸ saturated), next, reads⟩

/-! ### Emitted codes (R147) -/

/-- A populated code keeps its expansion while the table grows. -/
theorem expand_of_grows (inv : RunInv s) (grown : Grows s t) (populated : a < s.nextCode.toNat) :
    expand t a = expand s a := by
  suffices chains : ∀ n, expandChain t n a = expandChain s n a from chains (a + 1)
  intro n
  induction a, populated using populated_induction inv generalizing n with
  | literal a high low =>
    cases n with
    | zero => rfl
    | succ n =>
      have read := memRead_literal_of_inv inv low
      rw [expandChain_literal read, expandChain_literal ((grown.reads a high).trans read)]
  | pair a high e read _ ih =>
    cases n with
    | zero => rfl
    | succ n => rw [expandChain_pair read, expandChain_pair ((grown.reads a high).trans read), ih]

/-- A command that emits a code is not START, and the code is the prefix: what it emits is read from the register. -/
theorem prefix_of_emission (h : command i s = .next t) (emitted : t.out = s.out ++ [v]) :
    i ≠ .start ∧ s.phase = .run ∧ s.currentPrefixCode = some v := by
  cases i with
  | byte c =>
    obtain ⟨_, rfl⟩ | ⟨_, _, rfl⟩ | ⟨_, hp, p, hc, ⟨idx, _, rfl⟩ | ⟨_, rfl⟩⟩ | ⟨_, _, rfl⟩ :=
      byteCommand_cases h
    · simp at emitted
    · simp [byteSeed] at emitted
    · simp at emitted
    · obtain rfl : p = v := by simpa using emitted
      exact ⟨nofun, hp, hc⟩
    · simp at emitted
  | eos =>
    obtain ⟨_, rfl⟩ | ⟨_, _, rfl⟩ | ⟨_, hp, p, hc, rfl⟩ | ⟨_, _, rfl⟩ := eosCommand_cases h
    · simp at emitted
    · simp at emitted
    · obtain rfl : p = v := by simpa using emitted
      exact ⟨nofun, hp, hc⟩
    · simp at emitted
  | start => obtain ⟨_, rfl⟩ | ⟨_, _, rfl⟩ | ⟨_, _, rfl⟩ := startCommand_cases h <;> simp at emitted
  | reserved => obtain ⟨_, rfl⟩ | ⟨_, rfl⟩ := reservedCommand_cases h <;> simp at emitted

/-- Settles O38: the emitted code is the prefix, which is populated before the step, and from then on the table grows. -/
theorem emittedCodesArePopulated : Obligations.EmittedCodesArePopulated := by
  intro i s t v inv h emitted
  obtain ⟨executed, _, _⟩ := onCore_next ((exec_eq_onCore i s).symm.trans h)
  obtain ⟨not_start, hp, hc⟩ := prefix_of_emission executed emitted
  have run : RunInv s.toCoreState := inv.run (.inr (.inl hp))
  have populated := run.prefix_populated v hc
  have grown := command_grows not_start executed
  obtain ⟨x, expands, _⟩ := expand_exists run populated
  refine ⟨populated, v.isLt, x, expands, (expand_of_grows run grown populated).trans expands, ?_⟩
  intro n u no_reset no_start later
  exact (expand_of_grows run (grown.trans (steps_grows no_reset no_start later)) populated).trans expands

end Sys2Proof.Machine
end

section
/-! PROOFS. Whole runs: the states that the bytes of a run lead through, and that the run computes `compress` (R135), on the
empty input and on one byte in particular (R136, R137). -/

namespace Sys2Proof.Machine

open Sys2Proof.Safety

variable {w : Nat} {s t : CoreState w} {p q idx : Code w} {c b : Byte} {bs : List Byte}

/-! ### The bytes of a run after the first -/

/-- A run is open, has consumed a byte, has the prefix `p`, and each of its codes has been accepted. -/
structure Running (s : CoreState w) (p : Code w) : Prop where
  phase : s.phase = .run
  pending : s.pending = none
  holds : s.currentPrefixCode = some p
  inv : RunInv s

theorem Running.ready (run : Running s p) : cmdReady s = true :=
  cmdReady_iff.mpr ⟨by simp [run.phase], run.pending⟩

theorem Running.populated (run : Running s p) : p.toNat < s.nextCode.toNat :=
  run.inv.prefix_populated p run.holds

theorem Running.hit (run : Running s p) (found : search s p c = some idx) :
    Running (transfer (setPrefix idx s)) idx where
  phase := rfl
  pending := rfl
  holds := rfl
  inv := by
    obtain ⟨_, populated, _⟩ := search_some run.inv.next_code_high found
    exact transfer_runInv (setPrefix_runInv run.inv (by simp [run.phase]) populated)

theorem Running.miss (hw : 8 ≤ w) (run : Running s p) (missed : search s p c = none) :
    Running (transfer (byteMiss p c s)) (literalCode w c) where
  phase := rfl
  pending := rfl
  holds := rfl
  inv := transfer_runInv (byteMiss_runInv hw run.inv run.phase run.holds missed)

/-- From `s` with the prefix `p` the bytes lead, hit by hit and miss by miss, to `t` with the prefix `q`. -/
inductive Consumes : CoreState w → Code w → List Byte → CoreState w → Code w → Prop
  | nil {s : CoreState w} {p : Code w} (run : Running s p) : Consumes s p [] s p
  | hit {s t : CoreState w} {p q idx : Code w} {c : Byte} {bs : List Byte} (run : Running s p)
      (found : search s p c = some idx) (later : Consumes (transfer (setPrefix idx s)) idx bs t q) :
      Consumes s p (c :: bs) t q
  | miss {s t : CoreState w} {p q : Code w} {c : Byte} {bs : List Byte} (run : Running s p)
      (missed : search s p c = none) (later : Consumes (transfer (byteMiss p c s)) (literalCode w c) bs t q) :
      Consumes s p (c :: bs) t q

theorem consumes_exists (hw : 8 ≤ w) (run : Running s p) (bs : List Byte) : ∃ t q, Consumes s p bs t q := by
  induction bs generalizing s p with
  | nil => exact ⟨s, p, .nil run⟩
  | cons c bs ih =>
    cases searched : search s p c with
    | none =>
      obtain ⟨t, q, later⟩ := ih (run.miss hw searched)
      exact ⟨t, q, .miss run searched later⟩
    | some idx =>
      obtain ⟨t, q, later⟩ := ih (run.hit searched)
      exact ⟨t, q, .hit run searched later⟩

theorem Running.command_hit (run : Running s p) (found : search s p c = some idx) :
    command (.byte c) s = .next (setPrefix idx s) :=
  byteCommand_hit run.ready run.phase run.holds found

theorem Running.command_miss (run : Running s p) (missed : search s p c = none) :
    command (.byte c) s = .next (byteMiss p c s) :=
  byteCommand_miss run.ready run.phase run.holds missed

theorem Running.command_eos (run : Running s p) : command .eos s = .next (eosFlush s p) :=
  eosCommand_run run.ready run.phase run.holds

/-- The BYTE commands take the core where the bytes lead. -/
theorem Consumes.runCommands (consumed : Consumes s p bs t q) (is : List Instr) :
    Machine.runCommands (bs.map .byte ++ is) s = Machine.runCommands is t := by
  induction consumed with
  | nil _ => rfl
  | hit run found _ ih => exact (runCommands_cons (run.command_hit found) _).trans ih
  | miss run missed _ ih => exact (runCommands_cons (run.command_miss missed) _).trans ih

theorem Consumes.running (consumed : Consumes s p bs t q) : Running t q := by
  induction consumed with
  | nil run => exact run
  | hit _ _ _ ih => exact ih
  | miss _ _ _ ih => exact ih

theorem Consumes.faultCause (consumed : Consumes s p bs t q) : t.faultCause = s.faultCause := by
  induction consumed with
  | nil _ => rfl
  | hit _ _ _ ih => exact ih
  | miss _ _ _ ih => exact ih.trans byteMiss_faultCause

/-! ### From START to EOS -/

theorem running_afterFirstByte (hw : 8 ≤ w) (s : CoreState w) (b : Byte) :
    Running (afterFirstByte b s) (literalCode w b) where
  phase := rfl
  pending := rfl
  holds := rfl
  inv := by
    have started : RunInv (startRun { s with currentPrefixCode := none, pending := none }) :=
      startRun_runInv hw rfl
    have seeded := setPrefix_runInv started (by simp) (literalCode_populated hw started b)
    exact transfer_runInv seeded

/-- The state at the end of a non-empty run: the last prefix flushed and its code accepted. -/
def afterFlush (t : CoreState w) (q : Code w) : CoreState w := transfer (eosFlush t q)

@[simp] theorem afterFlush_phase : (afterFlush t q).phase = .done := rfl
@[simp] theorem afterFlush_out : (afterFlush t q).out = t.out ++ [q] := rfl
@[simp] theorem afterFlush_nextCode : (afterFlush t q).nextCode = t.nextCode := rfl
@[simp] theorem afterFlush_faultCause : (afterFlush t q).faultCause = t.faultCause := rfl
@[simp] theorem memRead_afterFlush (a : Nat) : memRead (afterFlush t q) a = memRead t a := rfl

theorem Running.afterFlush_runInv (run : Running s p) : RunInv (afterFlush s p) :=
  transfer_runInv (eosFlush_runInv run.inv run.phase run.populated)

/-- The state at the end of the empty run. -/
def afterEmptyRun (s : CoreState w) : CoreState w := transfer (eosEmpty (transfer (startRun s)))

theorem runCommands_empty (start : canStart s) : runCommands (compressCommands []) s = .next (afterEmptyRun s) := by
  have ended : command .eos (transfer (startRun s)) = .next (eosEmpty (transfer (startRun s))) :=
    eosCommand_ready (cmdReady_transfer (by simp)) rfl
  exact (runCommands_cons (command_start start) _).trans (runCommands_cons ended _)

theorem runCommands_openRun (start : canStart s)
    (consumed : Consumes (afterFirstByte b s) (literalCode w b) bs t q) :
    runCommands (openRun (b :: bs)) s = .next t := by
  have bytes := consumed.runCommands []
  rw [List.append_nil] at bytes
  exact (runCommands_start_byte start b _).trans bytes

theorem runCommands_compress (start : canStart s)
    (consumed : Consumes (afterFirstByte b s) (literalCode w b) bs t q) :
    runCommands (compressCommands (b :: bs)) s = .next (afterFlush t q) :=
  calc runCommands (compressCommands (b :: bs)) s
      = runCommands (bs.map Instr.byte ++ [Instr.eos]) (afterFirstByte b s) := runCommands_start_byte start b _
    _ = runCommands [Instr.eos] t := consumed.runCommands _
    _ = .next (afterFlush t q) := runCommands_cons consumed.running.command_eos _

/-! ### The pairs that `compress` has learnt are the entries of the table (R135) -/

/-- The table holds the pairs of the list, in order from code 256 on, and no others. -/
structure Learnt (s : CoreState w) (learnt : List (Nat × Byte)) : Prop where
  count : s.nextCode.toNat = 256 + learnt.length
  entry : ∀ k p c, learnt[k]? = some (p.toNat, c) ↔ memRead s (256 + k) = some (.pair ⟨p, c⟩)

variable {learnt : List (Nat × Byte)}

theorem learnt_startRun (hw : 8 ≤ w) (s : CoreState w) : Learnt (startRun s) [] where
  count := nextCode_startRun hw s
  entry k p c := by simp [memRead_startRun]

theorem Learnt.congr (same : Learnt s learnt) (next_code : t.nextCode = s.nextCode)
    (reads : ∀ a, memRead t a = memRead s a) : Learnt t learnt where
  count := by rw [next_code, same.count]
  entry k p c := by rw [reads, same.entry]

/-- A hit of the search is a hit of `compress`, on the same code. -/
theorem Learnt.findIdx?_of_hit (same : Learnt s learnt) (high : s.nextCode.toNat ≤ Config.tableSize w)
    (found : search s p c = some idx) :
    ∃ k, learnt.findIdx? (· == (p.toNat, c)) = some k ∧ 256 + k = idx.toNat := by
  obtain ⟨low, _, read, least⟩ := search_some high found
  obtain ⟨k, code⟩ := Nat.exists_eq_add_of_le low
  rw [code, ← same.entry, List.getElem?_eq_some_iff] at read
  obtain ⟨below, pair⟩ := read
  refine ⟨k, List.findIdx?_eq_some_iff_getElem.mpr ⟨below, by simp [pair], fun j before => ?_⟩, code.symm⟩
  have earlier := least (256 + j) (by omega) (by omega)
  rw [ne_eq, ← same.entry, List.getElem?_eq_getElem (before.trans below)] at earlier
  simpa using earlier

/-- A miss of the search is a miss of `compress`. -/
theorem Learnt.findIdx?_of_miss (same : Learnt s learnt) (missed : search s p c = none) :
    learnt.findIdx? (· == (p.toNat, c)) = none := by
  rw [List.findIdx?_eq_none_iff]
  intro pair listed
  obtain ⟨k, below, rfl⟩ := List.getElem_of_mem listed
  have absent := search_eq_none_iff.mp missed (256 + k) (by omega) (by rw [same.count]; omega)
  rw [ne_eq, ← same.entry, List.getElem?_eq_getElem below] at absent
  simpa using absent

/-- While there is room, a miss learns the pair that `compress` learns. -/
theorem Learnt.byteMiss (same : Learnt s learnt) (room : s.nextCode.toNat < Config.tableSize w) :
    Learnt (byteMiss p c s) (learnt ++ [(p.toNat, c)]) where
  count := by
    rw [byteMiss_nextCode, nextCode_insert room, same.count, List.length_append, List.length_singleton, Nat.add_assoc]
  entry k q d := by
    rw [memRead_byteMiss, memRead_insert room, same.count]
    by_cases new : k = learnt.length
    · simp [new, BitVec.toNat_inj]
    · rw [if_neg (by omega), ← same.entry]
      by_cases below : k < learnt.length
      · rw [List.getElem?_append_left below]
      · rw [List.getElem?_eq_none (by simp; omega), List.getElem?_eq_none (by omega)]

/-- From a state whose table is what `compress` has learnt, the bytes lead where they lead `compress`. -/
theorem Consumes.compressGo (hw : 8 ≤ w) (consumed : Consumes s p bs t q) (same : Learnt s learnt) :
    compressGo w bs learnt p.toNat (s.out.map BitVec.toNat) = (t.out ++ [q]).map BitVec.toNat := by
  induction consumed generalizing learnt with
  | nil _ => simp [Machine.compressGo]
  | hit run found _ ih =>
    obtain ⟨k, hit, code⟩ := same.findIdx?_of_hit run.inv.next_code_high found
    rw [Machine.compressGo, hit]
    simp only [Config.alphabetSize, code]
    exact ih (same.congr rfl fun _ => rfl)
  | @miss s t p q c bs run missed _ ih =>
    rw [Machine.compressGo, same.findIdx?_of_miss missed]
    simp only [Config.alphabetSize, ← same.count]
    rw [← literalCode_toNat hw c,
      show s.out.map BitVec.toNat ++ [p.toNat] = (transfer (Machine.byteMiss p c s)).out.map BitVec.toNat by simp]
    split
    · next room => exact ih ((same.byteMiss room).congr rfl fun _ => rfl)
    · next full =>
      have saturated : insert p c s = s := insert_saturated (Nat.le_of_not_lt full) p c
      refine ih (same.congr ?_ fun a => ?_)
      · rw [transfer_nextCode, byteMiss_nextCode, saturated]
      · exact (memRead_byteMiss a).trans (by rw [saturated])

/-- Settles O43: START has learnt nothing, and hit by hit and miss by miss the core does what `compress` does. -/
theorem runComputesCompress : Obligations.RunComputesCompress := by
  intro w hw bs s start
  cases bs with
  | nil => exact ⟨_, runCommands_empty start, rfl, rfl, rfl⟩
  | cons b bs =>
    obtain ⟨t, q, consumed⟩ := consumes_exists hw (running_afterFirstByte hw s b) bs
    have computed := consumed.compressGo hw ((learnt_startRun hw s).congr rfl fun _ => rfl)
    rw [literalCode_toNat hw] at computed
    exact ⟨_, runCommands_compress start consumed, rfl, consumed.faultCause, computed.symm⟩

/-- Settles O49: `compress` on no byte and on one byte. -/
theorem emptyAndSingleByteInputs : Obligations.EmptyAndSingleByteInputs := by
  intro w hw s start
  refine ⟨⟨_, runCommands_empty start, rfl, rfl⟩, fun b => ?_⟩
  obtain ⟨t, ran, done, _, out⟩ := runComputesCompress w hw [b] s start
  exact ⟨t, ran, done, out⟩

end Sys2Proof.Machine
end

section
/-! PROOFS. The output of a run expands to the input (R149). -/

namespace Sys2Proof.Machine

open Sys2Proof.Safety

variable {w : Nat} {s t : CoreState w} {p q idx : Code w} {c : Byte} {bs : List Byte}

/-! ### The expansions of lists of codes -/

theorem expandAll_append {vs us : List (Code w)} {x y : List Byte} (first : expandAll s vs = some x)
    (second : expandAll s us = some y) : expandAll s (vs ++ us) = some (x ++ y) := by
  induction vs generalizing x with
  | nil =>
    obtain rfl : [] = x := by simpa [expandAll] using first
    exact second
  | cons v vs ih =>
    cases head : expand s v.toNat with
    | none => simp [expandAll, head] at first
    | some z =>
      cases tail : expandAll s vs with
      | none => simp [expandAll, head, tail] at first
      | some z' =>
        obtain rfl : z ++ z' = x := by simpa [expandAll, head, tail] using first
        simp [expandAll, head, ih tail]

theorem expandAll_singleton {x : List Byte} (expands : expand s p.toNat = some x) : expandAll s [p] = some x := by
  simp [expandAll, expands]

/-- Emitted codes keep their expansions while the table grows. -/
theorem expandAll_of_grows (inv : RunInv s) (grown : Grows s t) {vs : List (Code w)}
    (populated : ∀ v ∈ vs, v.toNat < s.nextCode.toNat) : expandAll t vs = expandAll s vs := by
  induction vs with
  | nil => rfl
  | cons v vs ih =>
    rw [expandAll, expandAll, expand_of_grows inv grown (populated v List.mem_cons_self),
      ih fun u later => populated u (List.mem_cons_of_mem v later)]

/-! ### What output and prefix expand to -/

/-- A code that is found expands to the prefix's string and the byte. -/
theorem Running.expand_hit (run : Running s p) (found : search s p c = some idx) {y : List Byte}
    (expands : expand s p.toNat = some y) : expand s idx.toNat = some (y ++ [c]) := by
  obtain ⟨low, populated, read, _⟩ := search_some run.inv.next_code_high found
  obtain ⟨e, read', smaller⟩ := run.inv.entries_below _ low populated
  obtain rfl : (⟨p, c⟩ : PairEntry w) = e := by simpa [read] using read'
  rw [expand_pair run.inv populated read smaller, expands, Option.map_some]

theorem expand_literalCode (hw : 8 ≤ w) (inv : RunInv s) (b : Byte) :
    expand s (literalCode w b).toNat = some [b] := by
  rw [literalCode_toNat hw, expand_literal inv b.isLt, BitVec.ofNat_toNat, BitVec.setWidth_eq]

/-- Output and prefix expand to strings that together are the bytes. -/
def Expands (s : CoreState w) (p : Code w) (bs : List Byte) : Prop :=
  ∃ x y, expandAll s s.out = some x ∧ expand s p.toNat = some y ∧ x ++ y = bs

theorem Running.expands_hit (run : Running s p) (found : search s p c = some idx) (expanded : Expands s p bs) :
    Expands (transfer (setPrefix idx s)) idx (bs ++ [c]) := by
  obtain ⟨x, y, outputs, prefix_string, rfl⟩ := expanded
  have same : Grows s (transfer (setPrefix idx s)) := grows_of_eq rfl fun _ => rfl
  obtain ⟨_, populated, _⟩ := search_some run.inv.next_code_high found
  refine ⟨x, y ++ [c], ?_, ?_, (List.append_assoc x y [c]).symm⟩
  · exact (expandAll_of_grows run.inv same run.inv.outputs_populated).trans outputs
  · exact (expand_of_grows run.inv same populated).trans (run.expand_hit found prefix_string)

theorem Running.expands_miss (hw : 8 ≤ w) (run : Running s p) (missed : search s p c = none)
    (expanded : Expands s p bs) : Expands (transfer (byteMiss p c s)) (literalCode w c) (bs ++ [c]) := by
  obtain ⟨x, y, outputs, prefix_string, rfl⟩ := expanded
  have grown : Grows s (transfer (byteMiss p c s)) := byteMiss_grows.trans (grows_of_eq rfl fun _ => rfl)
  refine ⟨x ++ y, [c], ?_, expand_literalCode hw (run.miss hw missed).inv c, rfl⟩
  rw [transfer_out, byteMiss_out, expandAll_of_grows run.inv grown (emitted_populated run.inv run.populated)]
  exact expandAll_append outputs (expandAll_singleton prefix_string)

/-- A byte makes the strings of output and prefix longer by itself: a hit the prefix's, a miss the output's by that of
the old prefix, so that the byte is the new one's. -/
theorem Consumes.expands (hw : 8 ≤ w) (consumed : Consumes s p bs t q) {before : List Byte}
    (expanded : Expands s p before) : Expands t q (before ++ bs) := by
  induction consumed generalizing before with
  | nil _ => rwa [List.append_nil]
  | hit run found _ ih =>
    rw [List.append_cons]
    exact ih (run.expands_hit found expanded)
  | miss run missed _ ih =>
    rw [List.append_cons]
    exact ih (run.expands_miss hw missed expanded)

theorem Expands.expandAll (expanded : Expands s p bs) : expandAll s (s.out ++ [p]) = some bs := by
  obtain ⟨x, y, outputs, prefix_string, rfl⟩ := expanded
  exact expandAll_append outputs (expandAll_singleton prefix_string)

/-- Settles O48: the first byte is the string of its own code, the others make the strings longer, and EOS emits the
last prefix. -/
theorem outputExpandsToTheInput : Obligations.OutputExpandsToTheInput := by
  intro w hw bs s start
  cases bs with
  | nil => exact ⟨fun nonempty => absurd rfl nonempty, _, runCommands_empty start, rfl, rfl⟩
  | cons b bs =>
    have first := running_afterFirstByte hw s b
    obtain ⟨t, q, consumed⟩ := consumes_exists hw first bs
    have expanded : expandAll t (t.out ++ [q]) = some (b :: bs) :=
      (consumed.expands hw ⟨[], [b], rfl, expand_literalCode hw first.inv b, rfl⟩).expandAll
    have run := consumed.running
    have flushed : Grows t (afterFlush t q) := grows_of_eq rfl fun _ => rfl
    refine ⟨fun _ => ⟨t, q, runCommands_openRun start consumed, run.phase, run.holds, expanded⟩,
      _, runCommands_compress start consumed, rfl, ?_⟩
    exact (expandAll_of_grows run.inv flushed (emitted_populated run.inv run.populated)).trans expanded

end Sys2Proof.Machine
end

section
/-! PROOFS. The laws of whole runs: their counts (R148), the output without a hit (R138) and at code width 8 (R153), and the
learning law (R139). -/

namespace Sys2Proof.Machine

open Sys2Proof.Safety

variable {w : Nat} {s t : CoreState w} {p q idx : Code w} {b c d : Byte} {bs : List Byte}

/-! ### The counts of a run (R148) -/

theorem Running.countMisses_hit (run : Running s p) (hit : search s p c = some idx) (bs : List Byte) :
    countMisses (c :: bs) s = countMisses bs (transfer (setPrefix idx s)) := by
  simp [countMisses, run.holds, run.command_hit hit, nextState, hit, found]

theorem Running.countMisses_miss (run : Running s p) (missed : search s p c = none) (bs : List Byte) :
    countMisses (c :: bs) s = countMisses bs (transfer (byteMiss p c s)) + 1 := by
  simp [countMisses, run.holds, run.command_miss missed, nextState, missed, found, Nat.add_comm]

theorem Consumes.countMisses_le (consumed : Consumes s p bs t q) : countMisses bs s ≤ bs.length := by
  induction consumed with
  | nil _ => exact le_rfl
  | hit run found _ ih => exact (run.countMisses_hit found _).trans_le (ih.trans (Nat.le_succ _))
  | miss run missed _ ih => exact (run.countMisses_miss missed _).trans_le (Nat.succ_le_succ ih)

/-- One code for each miss. -/
theorem Consumes.out_length (consumed : Consumes s p bs t q) : t.out.length = s.out.length + countMisses bs s := by
  induction consumed with
  | nil _ => rfl
  | hit run found _ ih => rw [ih, run.countMisses_hit found, transfer_out, setPrefix_out]
  | miss run missed _ ih =>
    rw [ih, run.countMisses_miss missed, transfer_out, byteMiss_out, List.length_append, List.length_singleton]
    omega

theorem Consumes.afterFlush_length (consumed : Consumes (afterFirstByte b s) (literalCode w b) bs t q) :
    (afterFlush t q).out.length = countMisses bs (afterFirstByte b s) + 1 := by
  rw [afterFlush_out, List.length_append, consumed.out_length]
  exact congrArg (· + 1) (Nat.zero_add _)

/-- Settles O52: a code for each miss and one for the flush; the entries are counted by the invariant. -/
theorem runCounts : Obligations.RunCounts := by
  intro w hw s start
  refine ⟨⟨_, runCommands_empty start, rfl⟩, fun b bs => ?_⟩
  obtain ⟨t, q, consumed⟩ := consumes_exists hw (running_afterFirstByte hw s b) bs
  have misses := consumed.countMisses_le
  have codes := consumed.afterFlush_length
  have entries := consumed.running.afterFlush_runInv.count_done rfl
  rw [codes, Nat.add_sub_cancel] at entries
  exact ⟨_, _, runCommands_openRun start (.nil (running_afterFirstByte hw s b)), runCommands_compress start consumed,
    misses, codes, by omega, by omega, entries⟩

/-! ### Runs without a hit (R138) -/

/-- Miss by miss the prefixes that are emitted are the codes of the bytes themselves. -/
theorem Consumes.out_of_no_hit (consumed : Consumes s p bs t q) (no_hit : countMisses bs s = bs.length) :
    t.out ++ [q] = s.out ++ p :: bs.map (literalCode w) := by
  induction consumed with
  | nil _ => rfl
  | hit run found later ih =>
    have fewer := later.countMisses_le
    rw [run.countMisses_hit found, List.length_cons] at no_hit
    omega
  | miss run missed _ ih =>
    rw [run.countMisses_miss missed, List.length_cons, Nat.add_right_cancel_iff] at no_hit
    rw [ih no_hit, transfer_out, byteMiss_out, List.map_cons, List.append_assoc, List.singleton_append]

theorem literalCode_inj (hw : 8 ≤ w) : literalCode w b = literalCode w c ↔ b = c := by
  refine ⟨fun same => BitVec.eq_of_toNat_eq ?_, congrArg _⟩
  rw [← literalCode_toNat hw b, ← literalCode_toNat hw c, same]

/-- A miss leaves every other pair as little in the table as it was. -/
theorem search_byteMiss_other (other : (q, d) ≠ (p, c)) (missed : search s q d = none) :
    search (transfer (byteMiss p c s)) q d = none := by
  rw [search_eq_none_iff] at missed ⊢
  intro a low high
  rw [transfer_nextCode, byteMiss_nextCode] at high
  rw [show memRead (transfer (byteMiss p c s)) a = memRead (insert p c s) a from memRead_byteMiss a]
  by_cases room : s.nextCode.toNat < Config.tableSize w
  · rw [memRead_insert room]
    rw [nextCode_insert room] at high
    split
    · simpa [eq_comm] using other
    · exact missed a low (by omega)
  · rw [insert_saturated (Nat.le_of_not_lt room)] at high ⊢
    exact missed a low high

/-- When the adjacent pairs are pairwise distinct and none of them is in the table, each is asked for before it is
learnt. -/
theorem Running.countMisses_of_nodup (hw : 8 ≤ w) (run : Running s (literalCode w b))
    (distinct : ((b :: bs).zip bs).Nodup)
    (fresh : ∀ pair ∈ (b :: bs).zip bs, search s (literalCode w pair.1) pair.2 = none) :
    countMisses bs s = bs.length := by
  induction bs generalizing s b with
  | nil => rfl
  | cons c bs ih =>
    rw [List.zip_cons_cons, List.nodup_cons] at distinct
    rw [List.zip_cons_cons, List.forall_mem_cons] at fresh
    obtain ⟨first, others⟩ := distinct
    obtain ⟨missed, fresh⟩ := fresh
    rw [run.countMisses_miss missed, List.length_cons, ih (run.miss hw missed) others]
    intro pair later
    refine search_byteMiss_other (fun same => first ?_) (fresh pair later)
    obtain ⟨prefixes, bytes⟩ := Prod.mk.inj same
    have pair_eq : pair = (b, c) := Prod.ext ((literalCode_inj hw).mp prefixes) bytes
    exact pair_eq ▸ later

theorem search_of_no_entries (high : s.nextCode.toNat ≤ 256) (p : Code w) (c : Byte) : search s p c = none :=
  search_eq_none_iff.mpr fun a low below => by omega

/-- Where the table has no room for an entry at all, no byte is a hit. -/
theorem Consumes.countMisses_of_no_room (no_room : Config.tableSize w ≤ 256) (consumed : Consumes s p bs t q) :
    countMisses bs s = bs.length := by
  induction consumed with
  | nil _ => rfl
  | hit run found _ _ => simp [search_of_no_entries (run.inv.next_code_high.trans no_room)] at found
  | miss run missed _ ih => rw [run.countMisses_miss missed, ih, List.length_cons]

theorem Consumes.afterFlush_out_of_no_hit (consumed : Consumes (afterFirstByte b s) (literalCode w b) bs t q)
    (no_hit : countMisses bs (afterFirstByte b s) = bs.length) :
    (afterFlush t q).out = (b :: bs).map (literalCode w) :=
  consumed.out_of_no_hit no_hit

theorem nextCode_afterFirstByte (hw : 8 ≤ w) (b : Byte) (s : CoreState w) : (afterFirstByte b s).nextCode.toNat = 256 :=
  nextCode_startRun hw s

/-- Settles O50: a table without entries holds none of the pairs. -/
theorem noRepeatsLaw : Obligations.NoRepeatsLaw := by
  intro w hw b bs s start
  have first := running_afterFirstByte hw s b
  obtain ⟨t, q, consumed⟩ := consumes_exists hw first bs
  refine ⟨_, _, runCommands_openRun start (.nil first), runCommands_compress start consumed,
    consumed.afterFlush_out_of_no_hit, fun distinct => ?_⟩
  obtain distinct | rfl := distinct
  · exact first.countMisses_of_nodup hw distinct fun _ _ =>
      search_of_no_entries (nextCode_afterFirstByte hw b s).le _ _
  · exact consumed.countMisses_of_no_room le_rfl

/-! ### Code width 8 (R153) -/

/-- The run over `bs` at code width 8, with `compress` left aside. -/
theorem run_of_width_eight {s : CoreState 8} (start : canStart s) (bs : List Byte) :
    ∃ t, runCommands (compressCommands bs) s = .next t ∧ t.nextCode.toNat = 256 ∧ t.out = bs.map (literalCode 8) := by
  cases bs with
  | nil => exact ⟨_, runCommands_empty start, nextCode_startRun le_rfl s, rfl⟩
  | cons b bs =>
    obtain ⟨t, q, consumed⟩ := consumes_exists le_rfl (running_afterFirstByte le_rfl s b) bs
    have inv := consumed.running.inv
    exact ⟨_, runCommands_compress start consumed, Nat.le_antisymm inv.next_code_high inv.next_code_low,
      consumed.afterFlush_out_of_no_hit (consumed.countMisses_of_no_room le_rfl)⟩

/-- Settles O53: there is no code from 256 on, so every search misses; and the core computes `compress`. -/
theorem widthEightIsIdentity : Obligations.WidthEightIsIdentity := by
  refine ⟨fun s p c high => search_of_no_entries high p c, fun bs s start => ?_⟩
  obtain ⟨t, ran, next, out⟩ := run_of_width_eight start bs
  obtain ⟨t', ran', _, _, computed⟩ := runComputesCompress 8 le_rfl bs s start
  obtain rfl : t = t' := Host.Outcome.next.inj (ran.symm.trans ran')
  refine ⟨t, ran, next, full_iff.mpr next, out, ?_⟩
  rw [← computed, out, List.map_map]
  exact List.map_congr_left fun b _ => literalCode_toNat le_rfl b

/-! ### The learning law (R139) -/

theorem nextCode_miss (room : s.nextCode.toNat < Config.tableSize w) (p : Code w) (c : Byte) :
    (transfer (byteMiss p c s)).nextCode.toNat = s.nextCode.toNat + 1 := by
  rw [transfer_nextCode, byteMiss_nextCode, nextCode_insert room]

theorem memRead_miss_same (low : 256 ≤ s.nextCode.toNat) (room : s.nextCode.toNat < Config.tableSize w) (p : Code w)
    (c : Byte) : memRead (transfer (byteMiss p c s)) s.nextCode.toNat = some (.pair ⟨p, c⟩) :=
  (memRead_byteMiss _).trans (memRead_insert_same low room)

theorem memRead_miss_below {a : Nat} (below : a < s.nextCode.toNat) (p : Code w) (c : Byte) :
    memRead (transfer (byteMiss p c s)) a = memRead s a :=
  byteMiss_grows.reads a below

/-- What the search finds it finds as long as the table grows, for it answers the least match. -/
theorem search_of_grows (grown : Grows s t) (high : t.nextCode.toNat ≤ Config.tableSize w)
    (hit : search s p c = some idx) : search t p c = some idx := by
  obtain ⟨low, below, read, least⟩ := search_some (grown.next_code.trans high) hit
  refine (search_eq_some_iff high).mpr ⟨low, below.trans_le grown.next_code, (grown.reads _ below).trans read, ?_⟩
  intro a low_a before
  rw [grown.reads a (before.trans below)]
  exact least a low_a before

variable {A B : Byte}

/-- The state after `A, B`: the pair of the two bytes is learnt. -/
def afterTwoBytes (A B : Byte) (s : CoreState w) : CoreState w :=
  transfer (byteMiss (literalCode w A) B (afterFirstByte A s))

/-- The state after `A, B, A`: so is the pair of the two in the other order. -/
def afterThreeBytes (A B : Byte) (s : CoreState w) : CoreState w :=
  transfer (byteMiss (literalCode w B) A (afterTwoBytes A B s))

/-- The state after `A, B, A, B`: the first pair is the prefix. -/
def afterFourBytes (A B : Byte) (s : CoreState w) : CoreState w :=
  transfer (setPrefix (BitVec.ofNat w 256) (afterThreeBytes A B s))

theorem out_afterFourBytes (A B : Byte) (s : CoreState w) :
    (afterFourBytes A B s).out = [literalCode w A, literalCode w B] := by
  simp [afterFourBytes, afterThreeBytes, afterTwoBytes, afterFirstByte, byteSeed]

section

variable (hw : 9 ≤ w) (s : CoreState w)

include hw

/-- At these widths there is room for three entries, and more. -/
theorem room_of_nine_le : 512 ≤ Config.tableSize w :=
  Nat.pow_le_pow_right (n := 2) (by omega) hw

/-- The first learnt code fits the code port. -/
theorem toNat_first_code : (BitVec.ofNat w 256).toNat = 256 := by
  have size := room_of_nine_le hw
  rw [BitVec.toNat_ofNat]
  exact Nat.mod_eq_of_lt (show 256 < Config.tableSize w by omega)

theorem search_afterFirstByte (p : Code w) (c : Byte) : search (afterFirstByte A s) p c = none :=
  search_of_no_entries (nextCode_afterFirstByte (by omega) A s).le p c

theorem nextCode_afterTwoBytes : (afterTwoBytes A B s).nextCode.toNat = 257 := by
  have size := room_of_nine_le hw
  have next := nextCode_afterFirstByte (by omega) A s
  rw [afterTwoBytes, nextCode_miss (by omega), next]

theorem nextCode_afterThreeBytes : (afterThreeBytes A B s).nextCode.toNat = 258 := by
  have size := room_of_nine_le hw
  have next := nextCode_afterTwoBytes (A := A) (B := B) hw s
  rw [afterThreeBytes, nextCode_miss (by omega), next]

theorem running_afterTwoBytes : Running (afterTwoBytes A B s) (literalCode w B) :=
  (running_afterFirstByte (by omega) s A).miss (by omega) (search_afterFirstByte hw s _ B)

theorem search_afterTwoBytes (other : (q, d) ≠ (literalCode w A, B)) : search (afterTwoBytes A B s) q d = none :=
  search_byteMiss_other other (search_afterFirstByte hw s q d)

theorem memRead_afterThreeBytes_257 :
    memRead (afterThreeBytes A B s) 257 = some (.pair ⟨literalCode w B, A⟩) := by
  have size := room_of_nine_le hw
  have next := nextCode_afterTwoBytes (A := A) (B := B) hw s
  have learnt := memRead_miss_same (s := afterTwoBytes A B s) (by omega) (by omega) (literalCode w B) A
  rwa [next] at learnt

theorem memRead_afterThreeBytes_256 :
    memRead (afterThreeBytes A B s) 256 = some (.pair ⟨literalCode w A, B⟩) := by
  have size := room_of_nine_le hw
  have next := nextCode_afterFirstByte (by omega) A s
  have learnt := memRead_miss_same (s := afterFirstByte A s) (by omega) (by omega) (literalCode w A) B
  rw [next] at learnt
  exact (memRead_miss_below (by rw [nextCode_afterTwoBytes hw]; omega) _ A).trans learnt

/-- The second `A, B` asks for the pair that the first one learnt. -/
theorem search_afterThreeBytes_hit :
    search (afterThreeBytes A B s) (literalCode w A) B = some (BitVec.ofNat w 256) := by
  have size := room_of_nine_le hw
  have next := nextCode_afterFirstByte (by omega) A s
  have learnt := search_byteMiss (by omega) (by omega) (search_afterFirstByte (A := A) hw s (literalCode w A) B)
  rw [next] at learnt
  have grown : Grows (afterTwoBytes A B s) (afterThreeBytes A B s) :=
    byteMiss_grows.trans (grows_of_eq rfl fun _ => rfl)
  exact search_of_grows grown (by rw [nextCode_afterThreeBytes hw]; omega) learnt

/-- A learnt code is the prefix of no entry yet. -/
theorem search_afterFourBytes_miss : search (afterFourBytes A B s) (BitVec.ofNat w 256) A = none := by
  have learnt_code : ∀ b : Byte, BitVec.ofNat w 256 ≠ literalCode w b := fun b same => by
    have byte := b.isLt
    rw [← literalCode_toNat (w := w) (by omega), ← same, toNat_first_code hw] at byte
    omega
  have missed : search (afterThreeBytes A B s) (BitVec.ofNat w 256) A = none :=
    search_byteMiss_other (fun same => learnt_code B (Prod.mk.inj same).1)
      (search_afterTwoBytes hw s fun same => learnt_code A (Prod.mk.inj same).1)
  rw [afterFourBytes, ← missed]
  exact search_congr (by simp) (by simp) (by simp) _ A

end

section

variable (hw : 9 ≤ w) (distinct : A ≠ B) (s : CoreState w)

include hw distinct

theorem search_afterTwoBytes_miss : search (afterTwoBytes A B s) (literalCode w B) A = none :=
  search_afterTwoBytes hw s fun same => distinct (Prod.mk.inj same).2

theorem running_afterThreeBytes : Running (afterThreeBytes A B s) (literalCode w A) :=
  (running_afterTwoBytes hw s).miss (by omega) (search_afterTwoBytes_miss hw distinct s)

theorem running_afterFourBytes : Running (afterFourBytes A B s) (BitVec.ofNat w 256) :=
  (running_afterThreeBytes hw distinct s).hit (search_afterThreeBytes_hit hw s)

theorem consumes_afterThreeBytes {bs : List Byte} (later : Consumes (afterFourBytes A B s) (BitVec.ofNat w 256) bs t q) :
    Consumes (afterFirstByte A s) (literalCode w A) (B :: A :: B :: bs) t q :=
  .miss (running_afterFirstByte (by omega) s A) (search_afterFirstByte hw s _ B)
    (.miss (running_afterTwoBytes hw s) (search_afterTwoBytes_miss hw distinct s)
      (.hit (running_afterThreeBytes hw distinct s) (search_afterThreeBytes_hit hw s) later))

end

/-- Settles O51: the four bytes miss, miss and hit, and a fifth misses. -/
theorem learningLaw : Obligations.LearningLaw := by
  intro w hw A B s distinct start
  have size := room_of_nine_le hw
  have four := running_afterFourBytes hw distinct s
  have missed := search_afterFourBytes_miss (A := A) (B := B) hw s
  have next : (afterFourBytes A B s).nextCode.toNat = 258 := nextCode_afterThreeBytes hw s
  have code := toNat_first_code hw
  refine ⟨⟨_, runCommands_compress start (consumes_afterThreeBytes hw distinct s (.nil four)), ?_, next,
      memRead_afterThreeBytes_256 hw s, memRead_afterThreeBytes_257 hw s⟩,
    _, runCommands_compress start (consumes_afterThreeBytes hw distinct s
      (.miss four missed (.nil (four.miss (by omega) missed)))), ?_, ?_, ?_⟩
  · rw [afterFlush_out, out_afterFourBytes]
    simp [literalCode_toNat (show 8 ≤ w by omega), code]
  · rw [afterFlush_out, transfer_out, byteMiss_out, out_afterFourBytes]
    simp [literalCode_toNat (show 8 ≤ w by omega), code]
  · rw [afterFlush_nextCode, nextCode_miss (by omega), next]
  · have learnt := memRead_miss_same (s := afterFourBytes A B s) (by omega) (by omega) (BitVec.ofNat w 256) A
    rwa [next] at learnt

end Sys2Proof.Machine
end

section
/-! PROOFS. The output of a run at the ports depends on the accepted bytes only (R141). -/

namespace Sys2Proof.Machine

open Sys2Proof.Safety

variable {n : Nat} {s t u : State} {word : CommandWord} {words : List CommandWord}

/-- A step that accepts nothing leaves a machine that can begin a run as it is in this. -/
theorem canStart_of_no_command (start : canStart s.toCoreState) (hr : ∀ m rest, s.inputs = m :: rest → m.rst = false)
    (ha : acceptedWord s = none) (h : step s = .next u) : canStart u.toCoreState := by
  obtain ⟨t, next, pending⟩ := step_of_no_command ha hr
  obtain rfl : u = t := Host.Outcome.next.inj (h.symm.trans next)
  have phase : (settled u).phase = (settled s).phase := congrArg CoreState.phase (settled_of_no_command hr ha h)
  exact ⟨phase ▸ start.1, by simpa [start.2] using pending⟩

/-- The step that accepts START leaves nothing emitted and nothing waiting. -/
theorem step_of_accepted_start (start : canStart s.toCoreState) (ha : acceptedWord s = some word)
    (hd : decode word = .start) (h : step s = .next u) : u.out = [] ∧ u.pending = none := by
  have executed := command_of_acceptedWord ha h
  rw [hd, command_start (s := settled s) ⟨start.1, rfl⟩] at executed
  have started := Host.Outcome.next.inj executed
  exact ⟨started ▸ rfl, started ▸ rfl⟩

/-- From before its START on, what a run has transferred and what still waits is its output. -/
theorem transferredCodes_of_run (start : canStart s.toCoreState) (no_reset : noReset n s)
    (accepted : acceptedWords n s = word :: words) (hd : decode word = .start)
    (others : ∀ v ∈ words, decode v ≠ .start) (h : steps n s = .next t) :
    transferredCodes n s ++ t.pending.toList = t.out := by
  induction n generalizing s with
  | zero => cases accepted
  | succ n ih =>
    obtain ⟨u, stepped, later⟩ := steps_succ_eq_next_iff.mp h
    have first_rst : ∀ m rest, s.inputs = m :: rest → m.rst = false := fun _ _ => noReset_head no_reset
    rw [acceptedWords_succ stepped] at accepted
    rw [transferredCodes_succ stepped, transferredCode_of_ready (cmdReady_of_canStart start), Option.toList_none,
      List.nil_append]
    cases ha : acceptedWord s with
    | none =>
      rw [ha] at accepted
      exact ih (canStart_of_no_command start first_rst ha stepped) (noReset_of_step no_reset stepped) accepted later
    | some v =>
      obtain ⟨rfl, rfl⟩ : v = word ∧ acceptedWords n u = words := by simpa [ha] using accepted
      obtain ⟨out, pending⟩ := step_of_accepted_start start ha hd stepped
      obtain ⟨emitted, out_t, codes⟩ := transferred_in_order (noReset_of_step no_reset stepped) others later
      rw [codes, out_t, out, pending, Option.toList_none]

/-- What has been transferred at the end of a run over `bs`, once no code waits. -/
theorem transferredCodes_eq_out {bs : List Byte} (start : canStart s.toCoreState) (no_reset : noReset n s)
    (accepted : (acceptedWords n s).map decode = compressCommands bs) (h : steps n s = .next t)
    (none_waits : t.pending = none) : transferredCodes n s = t.out := by
  obtain ⟨word, words, accepted, hd, others⟩ := List.map_eq_cons_iff.mp accepted
  have no_start : ∀ v ∈ words, decode v ≠ .start := fun v listed same => by
    have command : Instr.start ∈ words.map decode := List.mem_map.mpr ⟨v, listed, same⟩
    rw [others] at command
    simp at command
  have codes := transferredCodes_of_run start no_reset accepted hd no_start h
  rwa [none_waits, Option.toList_none, List.append_nil] at codes

/-- Settles O46: the steps amount to the same commands, which from START on depend on nothing else. -/
theorem outputDependsOnInputOnly : Obligations.OutputDependsOnInputOnly := by
  intro bs n₁ n₂ s₁ s₂ t₁ t₂ start₁ start₂ no_reset₁ no_reset₂ accepted₁ accepted₂ h₁ h₂
  have ran₁ := stepsAreTheAcceptedCommands n₁ s₁ t₁ no_reset₁ h₁
  have ran₂ := stepsAreTheAcceptedCommands n₂ s₂ t₂ no_reset₂ h₂
  rw [accepted₁] at ran₁
  rw [accepted₂] at ran₂
  obtain ⟨t, ran, same⟩ :=
    runCommands_start_sameRun (s := settled s₁) (t := settled s₂) ⟨start₁.1, rfl⟩ ⟨start₂.1, rfl⟩ ran₁
  obtain rfl : t = settled t₂ := Host.Outcome.next.inj (ran.symm.trans ran₂)
  have out : t₁.out = t₂.out := same.out.symm
  refine ⟨out, same.next_code.symm, fun a => (same.reads a).symm, fun none₁ none₂ => ?_⟩
  rw [transferredCodes_eq_out start₁ no_reset₁ accepted₁ h₁ none₁,
    transferredCodes_eq_out start₂ no_reset₂ accepted₂ h₂ none₂, out]

end Sys2Proof.Machine
end

section
/-! PROOFS. Exceptions (60_exceptions.md): a protocol fault is raised in exactly two situations, FAULT holds until RESET,
and nothing else stops the core. -/

namespace Sys2Proof.Machine

open Sys2Proof.Safety

variable {w : Nat} {i : Instr} {s : State} {m : PortInputs} {rest : List PortInputs}

/-! ### The two situations that fault (R164) -/

theorem illegalCause_encode_eq_one_iff : (illegalCause i).encode = 1 ↔ i = .reserved := by
  cases i <;> simp [illegalCause, FaultCause.encode]

theorem illegalCause_encode_eq_two_iff : (illegalCause i).encode = 2 ↔ i ≠ .reserved := by
  cases i <;> simp [illegalCause, FaultCause.encode]

/-- The reserved opcode is legal in no phase, so a legal command is a defined one. -/
theorem ne_reserved_of_legal {p : Phase} (hp : p ∈ legalPhases i) : i ≠ .reserved := by
  rintro rfl
  simp [legalPhases] at hp

/-- An accepted command that is legal in its phase does not fault and leaves the cause alone (R160). -/
theorem exec_legal (inv : MachineInv s) (hr : cmdReady s.toCoreState = true) (hp : s.phase ∈ legalPhases i) :
    ∃ t, exec i s = .next t ∧ t.phase ≠ .fault ∧ t.faultCause = s.faultCause := by
  obtain ⟨c, next, phase, cause⟩ := command_legal inv hr hp
  have no_fault : phaseAfter i s.phase ≠ .fault := fun cell => (phaseAfter_eq_fault_iff i _).mp cell hp
  exact ⟨_, exec_of_command next, phase ▸ no_fault, cause⟩

/-- Settles O23: a legal command keeps the cause, which is none, and any other takes its own fault. -/
theorem faultsExactlyWhenIllegal : Obligations.FaultsExactlyWhenIllegal := by
  intro i s inv hr
  by_cases hp : s.phase ∈ legalPhases i
  · obtain ⟨t, next, phase, cause⟩ := exec_legal inv hr hp
    have no_cause : t.faultCause = .noFault := cause.trans (faultCause_of_ready inv hr)
    refine ⟨t, next, ?_, ?_, ?_⟩
    · simp [phase, ne_reserved_of_legal hp, hp]
    · simp [no_cause, FaultCause.encode, ne_reserved_of_legal hp]
    · simp [no_cause, FaultCause.encode, hp]
  · refine ⟨_, exec_of_command (command_illegal hr hp), ?_, illegalCause_encode_eq_one_iff, ?_⟩
    · simp [hp]
    · simpa [hp] using illegalCause_encode_eq_two_iff

/-! ### The FAULT phase (R166, R167) -/

theorem codeValid_of_fault {c : CoreState w} (hp : c.phase = .fault) : codeValid c = false := by
  simp [codeValid, isFault, hp]

theorem step_reset (hi : s.inputs = m :: rest) (hr : m.rst = true) :
    step s = .next (s.advance rest).resetEvent := by
  rw [step_cons hi]
  simp [portEvent, hr]

theorem transferredCode_of_fault (hp : s.phase = .fault) : transferredCode s = none := by
  rw [Option.eq_none_iff_forall_ne_some]
  intro code transferred
  obtain ⟨_, _, _, _, _, valid, _⟩ := transferredCode_eq_some_iff.mp transferred
  simp [codeValid_of_fault hp] at valid

/-- In FAULT a moment without RESET only passes. -/
theorem step_of_fault (hp : s.phase = .fault) (hi : s.inputs = m :: rest) (hr : m.rst = false) :
    step s = .next (s.advance rest) :=
  step_quiet hi hr (transferredCode_of_fault hp) (acceptedWord_of_not_ready (cmdReady_of_fault hp))

/-- Settles O24: with both handshakes at 0 there is no transfer and no acceptance, so only RESET is left to happen. -/
theorem faultPhaseHoldsUntilReset : Obligations.FaultPhaseHoldsUntilReset := by
  intro s hp
  refine ⟨cmdReady_of_fault hp, codeValid_of_fault hp, congrArg Phase.encode hp, rfl,
    exec_of_not_ready (cmdReady_of_fault hp), ?_⟩
  cases hi : s.inputs with
  | nil => exact ⟨s, step_nil hi, by simp, fun _ => rfl⟩
  | cons m rest =>
    cases hr : m.rst with
    | true => exact ⟨_, step_reset hi hr, fun _ => rfl, by simp [hr]⟩
    | false => exact ⟨_, step_of_fault hp hi hr, by simp [hr], fun _ => rfl⟩

/-! ### No step stops (R160) -/

/-- Under the invariant a command has a next state, accepted or not: in RUN the prefix can be read. -/
theorem command_next {c : CoreState w} (inv : CoreInv c) (i : Instr) : ∃ d, command i c = .next d := by
  cases hr : cmdReady c with
  | true =>
    obtain ⟨d, next, _⟩ := command_phaseAfter inv hr i
    exact ⟨d, next⟩
  | false => exact ⟨c, command_of_not_ready hr i⟩

theorem exec_next (inv : MachineInv s) (i : Instr) : ∃ t, exec i s = .next t := by
  obtain ⟨c, next⟩ := command_next inv i
  exact ⟨_, exec_of_command next⟩

/-- Only a command could stop a step, and under the invariant none does. -/
theorem step_next (inv : MachineInv s) : ∃ t, step s = .next t := by
  cases hi : s.inputs with
  | nil => exact ⟨s, step_nil hi⟩
  | cons m rest =>
    rw [step_cons hi]
    cases portEvent m s with
    | reset => exact ⟨_, rfl⟩
    | transfer => exact ⟨_, rfl⟩
    | command word => exact exec_next (s := s.advance rest) inv (decode word)
    | wait => exact ⟨_, rfl⟩

/-- Settles O37: the invariant gives the prefix in RUN, the only value whose absence could stop a command. -/
theorem legalCommandsNeverFail : Obligations.LegalCommandsNeverFail :=
  fun _ inv => ⟨step_next inv, fun _ hr hp => exec_legal inv hr hp⟩

end Sys2Proof.Machine
end

section
/-! PROOFS. RESET and hazards (70_reset_and_hazards.md): RESET goes before everything else at its moment (R190), and a
run whose commands are presented one by one at the ports transfers `compress` of its bytes and is then over (R193,
R195). -/

namespace Sys2Proof.Machine

open Sys2Proof.Safety

variable {i : Instr} {is : List Instr} {s : State} {m : PortInputs} {rest : List PortInputs}
  {c : CoreState Config.codeWidth}

/-! ### RESET (R190, 60_exceptions.md R168) -/

theorem acceptedWord_of_reset (hi : s.inputs = m :: rest) (hr : m.rst = true) : acceptedWord s = none := by
  simp [acceptedWord, hi, hr]

theorem transferredCode_of_reset (hi : s.inputs = m :: rest) (hr : m.rst = true) : transferredCode s = none := by
  simp [transferredCode, hi, hr]

/-- Settles O25: both handshakes look at `rst`, and the step is the RESET event. -/
theorem resetEvent : Obligations.ResetEvent :=
  fun _ _ _ hi hr => ⟨acceptedWord_of_reset hi hr, transferredCode_of_reset hi hr, _, step_reset hi hr,
    rfl, rfl, rfl, rfl, rfl, rfl, rfl⟩

/-! ### FAULT is left by no command -/

/-- Every command of a run that does not end in FAULT found the core outside FAULT (60_exceptions.md R166). -/
theorem phase_ne_fault_of_runCommands {w : Nat} {s t : CoreState w} (h : runCommands is s = .next t)
    (hp : t.phase ≠ .fault) : s.phase ≠ .fault := by
  induction is generalizing s with
  | nil =>
    cases h
    exact hp
  | cons i is ih =>
    obtain ⟨u, executed, others⟩ := runCommands_cons_eq_next_iff.mp h
    intro fault
    rw [command_of_not_ready (cmdReady_of_fault fault)] at executed
    obtain rfl : s = u := Host.Outcome.next.inj executed
    exact ih others fault

/-! ### The two moments of a command (30_encoding.md R71, R82) -/

/-- At the first moment the command is accepted and executed. -/
theorem step_presenting (hi : s.inputs = presenting (encode i) :: rest) (hr : cmdReady s.toCoreState = true)
    (h : command i s.toCoreState = .next c) :
    acceptedWord s = some (encode i) ∧ ∃ t, step s = .next t ∧ t.toCoreState = c ∧ t.inputs = rest := by
  refine ⟨(acceptedWord_presented_iff hi rfl rfl).mpr hr, { s.advance rest with toCoreState := c }, ?_, rfl, rfl⟩
  rw [step_command hi rfl rfl (codeValid_of_ready hr)]
  exact exec_of_command ((decode_encode i).symm ▸ h)

/-- At the second moment the command's code is transferred, if it emitted one. -/
theorem step_accepting (hi : s.inputs = accepting :: rest) (hp : s.phase ≠ .fault) :
    acceptedWord s = none ∧ ∃ t, step s = .next t ∧ t.toCoreState = transfer s.toCoreState ∧ t.inputs = rest := by
  have ha : acceptedWord s = none := by simp [acceptedWord, hi, accepting]
  refine ⟨ha, ?_⟩
  cases waits : s.pending with
  | some code => exact ⟨_, step_transfer hi (transferredCode_of_pending hp waits hi rfl), rfl, rfl⟩
  | none =>
    have ready : cmdReady s.toCoreState = true := cmdReady_iff.mpr ⟨hp, waits⟩
    exact ⟨_, step_quiet hi rfl (transferredCode_of_ready ready) ha, (transfer_of_ready ready).symm, rfl⟩

/-- No moment of a command asserts reset. -/
theorem rst_of_mem_commandMoments (hm : m ∈ is.flatMap commandMoments) : m.rst = false := by
  obtain ⟨i, _, hm⟩ := List.mem_flatMap.mp hm
  obtain rfl | rfl : m = presenting (encode i) ∨ m = accepting := by simpa [commandMoments] using hm
  · rfl
  · rfl

theorem length_commandMoments (is : List Instr) : (is.flatMap commandMoments).length = 2 * is.length := by
  simp [commandMoments, Nat.mul_comm]

/-! ### A run at the ports (R193) -/

/-- Presented one by one, commands that do not end in FAULT are all accepted, and the machine's core goes where
`runCommands` goes. -/
theorem steps_commandMoments (hi : s.inputs = is.flatMap commandMoments ++ rest) (pending : s.pending = none)
    (h : runCommands is s.toCoreState = .next c) (hp : c.phase ≠ .fault) :
    ∃ t, steps (2 * is.length) s = .next t ∧ t.toCoreState = c ∧ t.inputs = rest ∧
      acceptedWords (2 * is.length) s = is.map encode := by
  induction is generalizing s with
  | nil =>
    cases h
    exact ⟨s, rfl, rfl, hi, rfl⟩
  | cons i is ih =>
    have ready : cmdReady s.toCoreState = true := cmdReady_iff.mpr ⟨phase_ne_fault_of_runCommands h hp, pending⟩
    obtain ⟨d, executed, others⟩ := runCommands_cons_eq_next_iff.mp h
    obtain ⟨accepted, v, first, rfl, inputs_v⟩ := step_presenting hi ready executed
    have no_fault : v.phase ≠ .fault := phase_ne_fault_of_runCommands (s := settled v) others hp
    obtain ⟨not_accepted, u, second, core_u, inputs_u⟩ := step_accepting inputs_v no_fault
    obtain ⟨t, later, core_t, inputs_t, words⟩ := ih inputs_u (core_u ▸ rfl) (core_u ▸ others)
    refine ⟨t, ?_, core_t, inputs_t, ?_⟩
    · exact steps_succ_eq_next_iff.mpr ⟨v, first, steps_succ_eq_next_iff.mpr ⟨u, second, later⟩⟩
    · rw [List.length_cons, Nat.mul_succ, acceptedWords_succ first, acceptedWords_succ second, accepted, not_accepted,
        words]
      rfl

theorem noReset_commandMoments (hi : s.inputs = is.flatMap commandMoments ++ rest) : noReset (2 * is.length) s := by
  intro m taken
  rw [hi, ← length_commandMoments, List.take_left] at taken
  exact rst_of_mem_commandMoments taken

theorem length_compressCommands (bs : List Byte) : (compressCommands bs).length = bs.length + 2 := by
  simp [compressCommands, openRun]

/-- Settles O44: at the ports the machine runs the commands that compute `compress`, ends in DONE with no code waiting,
and so has transferred all of its output. -/
theorem runAtThePortsComputesCompress : Obligations.RunAtThePortsComputesCompress := by
  intro bs rest s start hi
  obtain ⟨c, ran, done, _, computed⟩ := runComputesCompress Config.codeWidth (by decide) bs s.toCoreState start
  have none_waits : c.pending = none := runCommands_pending start.2 ran
  have no_fault : c.phase ≠ .fault := by simp [done]
  obtain ⟨t, stepped, rfl, inputs, words⟩ := steps_commandMoments hi start.2 ran no_fault
  have accepted : (acceptedWords (2 * (compressCommands bs).length) s).map decode = compressCommands bs := by
    simp [words, Function.comp_def, decode_encode]
  have transferred := transferredCodes_eq_out start (noReset_commandMoments hi) accepted stepped none_waits
  rw [length_compressCommands] at stepped transferred
  have ended : runOver t = true := by simp [runOver, isDone, done, codeValid, none_waits]
  exact ⟨t, (steps_eq_run _ s).symm.trans stepped, ended, inputs, transferred ▸ computed, computed⟩

end Sys2Proof.Machine
end

section
/-! PROOFS. The command words of the test vectors (95_test_vectors.md V32 to V39). -/

namespace Sys2Proof.Machine

/-- R74 to R76: a word with the opcode of EOS, START or the reserved one is that command, whatever its `arg`. -/
theorem decode_eq_of_opField {v : CommandWord} {i : Instr} (not_byte : ∀ b, i ≠ .byte b) (op : opField v = opcodeOf i) :
    decode v = i :=
  decode_eq_iff.mpr ⟨op, fun b is_byte => absurd is_byte (not_byte b)⟩

/-- Settles O1: the BYTE words are encodings of their bytes, and every other word is the command of its opcode. -/
theorem vectorWordsDecode : Obligations.VectorWordsDecode := by
  have eos {v : CommandWord} (op : opField v = 0b01) : decode v = .eos := decode_eq_of_opField nofun op
  have start {v : CommandWord} (op : opField v = 0b10) : decode v = .start := decode_eq_of_opField nofun op
  have reserved {v : CommandWord} (op : opField v = 0b11) : decode v = .reserved := decode_eq_reserved_iff.mpr op
  exact ⟨decode_encode (.byte 0x00), decode_encode (.byte 0xFF), decode_encode (.byte 0x41),
    eos (by decide), eos (by decide), start (by decide), start (by decide), reserved (by decide), reserved (by decide)⟩

end Sys2Proof.Machine
end
